-- ==== Sys2Proof/Config.lean ====
section
/-!
DEFINITION. Config.lean: the implementation parameters of the CORE (00_scope.md R8) and the free values of the model.

No parameter is fixed here: `W` is an argument of every type and operation of the model, and the machine carries the W,
NREG and PMAX it was built with (`State.W`, `Record.nreg`, `Record.pmax`). The three reference values are those of
`State.reset`; `State.resetAt` takes all three as arguments.
-/

namespace Sys2Proof.Config

/-- R8, R55: the width of an instruction word. -/
abbrev ILEN (W : Nat) : Nat := 2 * W + 8

/-- R8, D1: the reference width (log entry 1). -/
abbrev wReference : Nat := 32

/-- R8, D3: the reference register count (log entry 2). -/
def nregReference : Nat := 4

/-- R8, D8: the reference capacity of the program store (log entry 2). -/
def pmaxReference : Nat := 2 ^ 16

/-- R8: the constraints on the parameters. -/
def legal (W nreg pmax : Nat) : Bool :=
  decide (2 ≤ W) && decide (1 ≤ nreg) && decide (nreg ≤ 2 ^ W - 1) && decide (1 ≤ pmax) && decide (pmax ≤ 2 ^ (W - 1))

/-- R31, R131, U12: the word that program-store index `k` holds after reset number `epoch` until something writes it.
The spec leaves it unspecified ("a free draw"): a FREE VALUE with no body (log entry 4). -/
opaque unwrittenWord (W epoch k : Nat) : BitVec (ILEN W)

/-- R114: the FINFO value of an illegal KIND where FINFO has fewer bits than KIND (W = 2), for which `zext_W(KIND)` states no
value. A FREE VALUE with no body (log entry 21). -/
opaque narrowKindInfo (W : Nat) (kind : BitVec 3) : BitVec W

/-- R27, D22, U14: which instruction boundary of the run the `n`-th host read draws from while the CORE is RUNNING.
A FREE VALUE with no body (log entry 7). -/
opaque readDraw (n : Nat) : Nat

end Sys2Proof.Config
end

