-- ==== Sys2Proof/Word.lean ====
section
/-!
DEFINITION. Word.lean: the W-bit value, the ILEN-bit instruction word, operands and instruction kinds.
-/

namespace Sys2Proof

/-- R10, R16: a W-bit value; `toInt` is the spec's `signed`, `toNat` its `unsigned`, and `+` and `-` are modulo `2^W`. -/
abbrev Word (W : Nat) := BitVec W

/-- R55: one instruction word of the program store. -/
abbrev RawWord (W : Nat) := BitVec (Config.ILEN W)

/-- R12, R58: an operand is an immediate, "a constant signed integer", or a reference to a register by index.
Neither says a width: which integers and indices a word of width W can hold is `Operand.fits` (log entry 19). -/
inductive Operand where
  | imm (k : Int)
  | reg (i : Nat)
deriving DecidableEq, Repr

/-- R56: the two operand fields of a word. -/
inductive Slot where
  | A
  | B
deriving DecidableEq, Repr

/-- R59: the five instruction kinds. -/
inductive Kind where
  | cpy
  | inc
  | dec
  | jnz
  | tgl
deriving DecidableEq, Repr

end Sys2Proof
end

