-- ==== Sys2Proof/Syntax.lean ====
section
/-!
DEFINITION. Syntax.lean: the instruction set (00_scope.md R2, opcode_table.json), one constructor per row of the table.
-/

namespace Sys2Proof

/-- R59: the five instructions with their operands, named by their roles. -/
inductive Instr where
  | cpy (src dst : Operand)
  | inc (x : Operand)
  | dec (x : Operand)
  | jnz (x y : Operand)
  | tgl (x : Operand)
deriving DecidableEq, Repr

end Sys2Proof
end

