-- ==== Sys2Proof/WellFormed.lean ====
section
/-!
DEFINITION. WellFormed.lean: which instruction terms the encoding can hold (30_encoding.md R64).
-/

namespace Sys2Proof

/-- R117: a register operand names an existing register; an immediate names none. -/
def Operand.inFile (nreg : Nat) : Operand → Bool
  | .imm _ => true
  | .reg i => decide (i < nreg)

/-- R65, R66: the operand has an encoding: an immediate lies in `[-2^(W-1), 2^(W-1)-1]`, a register exists. -/
def Operand.fits (W nreg : Nat) : Operand → Bool
  | .imm k => decide (-2 ^ (W - 1) ≤ k) && decide (k ≤ 2 ^ (W - 1) - 1)
  | .reg i => decide (i < nreg)

/-- R83: every register operand of the instruction exists. -/
def Instr.registersExist (nreg : Nat) : Instr → Bool
  | .cpy src dst => src.inFile nreg && dst.inFile nreg
  | .inc x => x.inFile nreg
  | .dec x => x.inFile nreg
  | .jnz x y => x.inFile nreg && y.inFile nreg
  | .tgl x => x.inFile nreg

/-- R64: every operand of the instruction has an encoding at width `W` with `nreg` registers.
The other clauses of R64 (RSV, KIND, the unused operand B) hold of a term by its shape. -/
def Instr.wellFormed (W nreg : Nat) : Instr → Bool
  | .cpy src dst => src.fits W nreg && dst.fits W nreg
  | .inc x => x.fits W nreg
  | .dec x => x.fits W nreg
  | .jnz x y => x.fits W nreg && y.fits W nreg
  | .tgl x => x.fits W nreg

end Sys2Proof
end

