-- ==== Sys2Proof/Decode.lean ====
section
/-!
DEFINITION. Decode.lean: the fields of an instruction word, the decoder (30_encoding.md R68), and after it the encoder (R73).
-/

namespace Sys2Proof

/-- R114: the faults the CORE can raise, each with the data its FINFO value is made from. -/
inductive CoreFault (W : Nat) where
  /-- R115: an executed word has KIND 5, 6 or 7. -/
  | illegalKind (kind : BitVec 3)
  /-- R116: an executed word has RSV non-zero, or a one-operand kind with operand B non-zero. -/
  | reservedBits
  /-- R117: a register operand the kind uses has an index `>= NREG`. -/
  | badRegister (slot : Slot)
  /-- R109: a `tgl`'s in-range target word has KIND 5, 6 or 7. -/
  | toggleUnmapped (target : Word W)
deriving DecidableEq, Repr

/-! ## Kinds -/

/-- R59, R60: the kind a KIND code names; codes 5, 6 and 7 name none. -/
def Kind.ofCode (c : BitVec 3) : Option Kind :=
  match c.toNat with
  | 0 => some .cpy
  | 1 => some .inc
  | 2 => some .dec
  | 3 => some .jnz
  | 4 => some .tgl
  | _ => none

/-- R59: the KIND code of a kind. -/
def Kind.code : Kind → BitVec 3
  | .cpy => 0
  | .inc => 1
  | .dec => 2
  | .jnz => 3
  | .tgl => 4

/-- R59, R61: whether the kind takes one operand; the others take two. -/
def Kind.oneOperand : Kind → Bool
  | .cpy => false
  | .inc => true
  | .dec => true
  | .jnz => false
  | .tgl => true

/-- R59, R112: the instruction of a kind with the operand fields in their positions; operand B is not used by a
one-operand kind. -/
def Kind.instr (k : Kind) (a b : Operand) : Instr :=
  match k with
  | .cpy => .cpy a b
  | .inc => .inc a
  | .dec => .dec a
  | .jnz => .jnz a b
  | .tgl => .tgl a

/-- R59: the kind of an instruction. -/
def Instr.kind : Instr → Kind
  | .cpy _ _ => .cpy
  | .inc _ => .inc
  | .dec _ => .dec
  | .jnz _ _ => .jnz
  | .tgl _ => .tgl

/-! ## Fields of a word (R56) -/

variable {W : Nat}

/-- R56: RSV, bits `[2W+7:2W+5]`. -/
def rsvField (w : RawWord W) : BitVec 3 := w.extractLsb' (2 * W + 5) 3

/-- R56: KIND, bits `[2W+4:2W+2]`. -/
def kindField (w : RawWord W) : BitVec 3 := w.extractLsb' (2 * W + 2) 3

/-- R56: A.TAG, bit `[2W+1]`. -/
def aTag (w : RawWord W) : Bool := w.getLsbD (2 * W + 1)

/-- R56: A.VAL, bits `[2W:W+1]`. -/
def aVal (w : RawWord W) : Word W := w.extractLsb' (W + 1) W

/-- R56: B.TAG, bit `[W]`. -/
def bTag (w : RawWord W) : Bool := w.getLsbD W

/-- R56: B.VAL, bits `[W-1:0]`. -/
def bVal (w : RawWord W) : Word W := w.extractLsb' 0 W

/-- R62: the whole of operand B, TAG and VAL: bits `[W:0]`. -/
def bField (w : RawWord W) : BitVec (1 + W) := w.extractLsb' 0 (1 + W)

/-- R58, R65, R66: the operand a (TAG, VAL) pair encodes: `signed(VAL)` or register `unsigned(VAL)`. -/
def operandOf (tag : Bool) (val : Word W) : Operand :=
  if tag then .reg val.toNat else .imm val.toInt

/-- R58: operand A of a word. -/
def operandA (w : RawWord W) : Operand := operandOf (aTag w) (aVal w)

/-- R58: operand B of a word. -/
def operandB (w : RawWord W) : Operand := operandOf (bTag w) (bVal w)

/-- R43: the word with its KIND field replaced and every other bit kept:
`w[ILEN-1:2W+5] ++ kind ++ w[2W+1:0]`. -/
def setKindField (w : RawWord W) (kind : BitVec 3) : RawWord W :=
  (rsvField w ++ kind ++ w.extractLsb' 0 (2 * W + 2)).cast (by unfold Config.ILEN; omega)

/-! ## The decoder (R68) -/

/-- R68: the decoder, total on every word, with the checks in the order of R119. `nreg` is NREG. -/
def decode (nreg : Nat) (w : RawWord W) : Except (CoreFault W) Instr :=
  match Kind.ofCode (kindField w) with
  | none => .error (.illegalKind (kindField w))
  | some k =>
    if rsvField w ≠ 0 then .error .reservedBits
    else if k.oneOperand ∧ bField w ≠ 0 then .error .reservedBits
    else if ¬ (operandA w).inFile nreg then .error (.badRegister .A)
    else if ¬ k.oneOperand ∧ ¬ (operandB w).inFile nreg then .error (.badRegister .B)
    else .ok (k.instr (operandA w) (operandB w))

/-- R64: when a word is well-formed, said of its bits and not through the decoder. -/
def wordWellFormed (nreg : Nat) (w : RawWord W) : Bool :=
  rsvField w = 0 && (kindField w).toNat ≤ 4 &&
  (if (kindField w).toNat ∈ [1, 2, 4] then decide (bField w = 0)
   else !(bTag w) || decide ((bVal w).toNat < nreg)) &&
  (!(aTag w) || decide ((aVal w).toNat < nreg))

/-- The decoder applied to a row of opcode_table.json: `w` holds the row's `nbits` bits, bit 0 the least significant
bit of the word, every bit above them 0; W and NREG are the reference values, those of the table. -/
def decodeTableWord (nbits w : Nat) : Option Instr :=
  match decode (W := Config.wReference) Config.nregReference (BitVec.ofNat _ (w % 2 ^ nbits)) with
  | .ok i => some i
  | .error _ => none

/-! ## The encoder (R73) -/

/-- R73: the TAG bit of an operand. -/
def Operand.tag : Operand → BitVec 1
  | .imm _ => 0
  | .reg _ => 1

/-- R65, R66, R73: the VAL field of an operand: the two's-complement pattern of an immediate, or a register's index. -/
def Operand.field (W : Nat) : Operand → Word W
  | .imm k => BitVec.ofInt W k
  | .reg i => BitVec.ofNat W i

/-- R56: a word made of its fields, `RSV ++ KIND ++ A.TAG ++ A.VAL ++ B`. -/
def assemble (rsv kind : BitVec 3) (aTag : BitVec 1) (aVal : Word W) (b : BitVec (1 + W)) : RawWord W :=
  (rsv ++ kind ++ aTag ++ aVal ++ b).cast (by unfold Config.ILEN; omega)

/-- R62, R73: operand B of a one-operand word. -/
def noOperand (W : Nat) : BitVec (1 + W) := 0

/-- R73: operand B of a two-operand word. -/
def Operand.pack (W : Nat) (o : Operand) : BitVec (1 + W) := o.tag ++ o.field W

/-- R73: the word of an instruction at width `W`, from the encoding table (R56, R59); RSV is zero, and operand B is zero
for a one-operand kind. -/
def encode (W : Nat) : Instr → RawWord W
  | .cpy src dst => assemble 0 0 src.tag (src.field W) (dst.pack W)
  | .inc x => assemble 0 1 x.tag (x.field W) (noOperand W)
  | .dec x => assemble 0 2 x.tag (x.field W) (noOperand W)
  | .jnz x y => assemble 0 3 x.tag (x.field W) (y.pack W)
  | .tgl x => assemble 0 4 x.tag (x.field W) (noOperand W)

end Sys2Proof
end

