-- ==== Sys2Proof/Machine/State.lean ====
section
/-!
DEFINITION. Machine/State.lean: the state of the CORE as plain data (10_state.md R31), the reasons a step can stop, and
the state right after reset.
-/

namespace Sys2Proof.Machine

/-- R23: the run status. -/
inductive RunState where
  | idle
  | running
  | halted
  | faulted
deriving DecidableEq, Repr

/-- R22, R41: the program store as the list of the words written since reset, by index (log entry 3).
An index that is not listed holds an unspecified word (R131, log entry 4). -/
abbrev Memory (W : Nat) := List (Nat × RawWord W)

/-- R26, R27, R87, R131: one thing the host does to the CORE at an instruction boundary. -/
inductive HostAccess (W : Nat) where
  /-- The host does nothing while the CORE takes one step of its own (log entry 6). -/
  | tick
  /-- R131: the reset input. -/
  | reset
  /-- R26: a read of a control register by number. -/
  | readControl (no : Nat)
  /-- R26: a write of a control register by number. -/
  | writeControl (no : Nat) (v : Word W)
  /-- R27: a read of general register `i`. -/
  | readX (i : Nat)
  /-- R27: a write of general register `i`. -/
  | writeX (i : Nat) (v : Word W)
  /-- R27: a read of program word `k`. -/
  | readP (k : Nat)
  /-- R27: a write of program word `k`. -/
  | writeP (k : Nat) (w : RawWord W)
deriving DecidableEq, Repr

/-- R26, R27: what a host read answers. -/
inductive HostReply (W : Nat) where
  | word (v : Word W)
  | instruction (w : RawWord W)
deriving DecidableEq, Repr

/-- R27: the part of the state at an instruction boundary that a host read while RUNNING draws from. -/
structure Boundary (W : Nat) where
  x : List (Word W)
  pc : Word W
  prog : Memory W
deriving DecidableEq, Repr

/-- The host's side of the port: fields of the MODEL, not of the spec's record (log entries 4, 6, 7 and 15). -/
structure HostPort (W : Nat) where
  /-- The host accesses to come, in order; when there are none the CORE runs on alone (log entry 6). -/
  pending : List (HostAccess W)
  /-- What the host's reads have answered, newest first. -/
  replies : List (HostReply W)
  /-- R27: while RUNNING, the instruction boundaries since the run began, newest first; else empty (log entry 7). -/
  boundaries : List (Boundary W)
  /-- How many host resets there have been: it picks the free values of unwritten words (log entry 4). -/
  epoch : Nat
  /-- How many host reads there have been: it picks the boundary a read draws (log entry 7). -/
  draws : Nat
deriving DecidableEq, Repr

/-- R31: the record of the whole state of a CORE of width `W`. NREG is the length of `x`; PMAX is the field `pmax`
(log entry 2). -/
structure Record (W : Nat) where
  /-- R16: the general registers `x[0..NREG-1]`. -/
  x : List (Word W)
  /-- R19: the program counter. -/
  pc : Word W
  /-- R21: the program length PLEN. -/
  plen : Nat
  /-- R22: the program store P. -/
  prog : Memory W
  /-- R23: STATE. -/
  runState : RunState
  /-- R24: CAUSE. -/
  cause : BitVec 4
  /-- R25: FINFO. -/
  finfo : Word W
  /-- R30, R91: the pending-STOP latch. -/
  stopPending : Bool
  /-- R8, R26: the capacity PMAX of the program store, the constant CFG_PMAX. -/
  pmax : Nat
  /-- The model's own side of the host port. -/
  port : HostPort W
deriving DecidableEq, Repr

/-- The state of the machine: the width it was built with (R8) and the record of R31 at that width (log entry 1). -/
structure State where
  W : Nat
  record : Record W
deriving DecidableEq, Repr

/-- The machine of width `W` whose record this is. -/
abbrev Record.state {W : Nat} (s : Record W) : State := { W := W, record := s }

/-- The reasons for which a step ends in a fault outcome: there is none.
Every fault of this hardware has an entry the spec describes (R118), so it is a NEXT state with STATE = FAULTED, and the
machine stays in it until reset (log entry 10). Safe. -/
inductive Fault : Type
deriving DecidableEq, Repr

/-- The reasons for which the model refuses a step. -/
inductive Refusal where
  /-- Raised by an arm of `exec` whose instruction has no meaning yet; no arm is one. Safe. -/
  | notModelled (mnemonic : String)
  /-- Raised by the commands RUN, RESUME and STEP when they would execute a program with a word the host has not written
  since reset: R134, "The model refuses such a launch" (log entry 5). Safe. -/
  | unwrittenProgram
  /-- Raised by a host access to `x[i]` with `i >= NREG` or to `P[k]` with `k >= PMAX`, which R27 does not give
  (log entry 13). Safe. -/
  | noSuchPortIndex
deriving DecidableEq, Repr

/-- What a step or an instruction answers. -/
abbrev Result := Host.Outcome State Fault Refusal

/-- The host port of the model at the start (log entry 15). -/
def HostPort.initial (W : Nat) : HostPort W :=
  { pending := [], replies := [], boundaries := [], epoch := 0, draws := 0 }

/-- R31, R131: the record right after reset of a CORE with parameters `W`, `nreg` and `pmax` (R8). -/
def Record.resetAt (W nreg pmax : Nat) : Record W :=
  { x := List.replicate nreg 0
    pc := 0
    plen := 0
    prog := []
    runState := .idle
    cause := 0
    finfo := 0
    stopPending := false
    pmax := pmax
    port := HostPort.initial W }

/-- R8, R31: the machine right after reset, for every W, NREG and PMAX. -/
def State.resetAt (W nreg pmax : Nat) : State := (Record.resetAt W nreg pmax).state

/-- R8, R31: the machine right after reset at the reference values of the parameters. -/
def State.reset : State := State.resetAt Config.wReference Config.nregReference Config.pmaxReference

end Sys2Proof.Machine
end

