-- ==== Sys2Proof/Machine/Ops.lean ====
section
/-!
DEFINITION. Machine/Ops.lean: the named operations over the program store, the registers, the program counter and the
run status; taking a fault (60_exceptions.md R118); and the one way out of it, reset (R121, R131).
-/

namespace Sys2Proof.Machine

variable {W : Nat}

/-! ## The program store -/

/-- The canonical form of the store: indices strictly rising, so that equal stores are equal lists. -/
abbrev Memory.wf (m : Memory W) : Prop := m.Pairwise (fun p q => p.1 < q.1)

/-- The word written at index `k` since reset, if any. -/
def Memory.find? (k : Nat) : Memory W → Option (RawWord W)
  | [] => none
  | (j, v) :: m => if j = k then some v else Memory.find? k m

/-- R44: a whole-word write of index `k`, keeping the canonical form. -/
def Memory.write (k : Nat) (w : RawWord W) : Memory W → Memory W
  | [] => [(k, w)]
  | (j, v) :: m =>
    if k < j then (k, w) :: (j, v) :: m
    else if k = j then (k, w) :: m
    else (j, v) :: Memory.write k w m

/-- R43 `FetchWord`, on a store: the word at index `k`; a word nothing has written is the free value of R131. -/
def Memory.word (epoch k : Nat) (m : Memory W) : RawWord W :=
  match m.find? k with
  | some w => w
  | none => Config.unwrittenWord W epoch k

namespace Record

/-! ## Updates of one field -/

/-- The state with other registers. -/
def withX (s : Record W) (x : List (Word W)) : Record W := { s with x := x }

/-- R11: `pc <- t`. -/
def withPc (s : Record W) (t : Word W) : Record W := { s with pc := t }

/-- R26: the state with another program length. -/
def withPlen (s : Record W) (n : Nat) : Record W := { s with plen := n }

/-- The state with another program store. -/
def withProg (s : Record W) (m : Memory W) : Record W := { s with prog := m }

/-- The state with another run status. -/
def withRunState (s : Record W) (r : RunState) : Record W := { s with runState := r }

/-- R91: the state with the pending-STOP latch set or cleared. -/
def withStop (s : Record W) (b : Bool) : Record W := { s with stopPending := b }

/-- R24, R25: the state with other fault fields. -/
def withFault (s : Record W) (cause : BitVec 4) (finfo : Word W) : Record W := { s with cause := cause, finfo := finfo }

/-- The state with another host side. -/
def withPort (s : Record W) (p : HostPort W) : Record W := { s with port := p }

/-! ## Registers (R11, R16 to R18) -/

/-- R8, R16: NREG, the number of general registers. -/
def nreg (s : Record W) : Nat := s.x.length

/-- R11: `x[i]`. It is applied to valid indices only (R83). -/
def readX (s : Record W) (i : Nat) : Word W := s.x.getD i 0

/-- R11: `x[i] <- v`. It is applied to valid indices only (R83); every other register keeps its value (R17). -/
def writeX (s : Record W) (i : Nat) (v : Word W) : Record W := s.withX (s.x.set i v)

/-! ## Program counter and program (R40 to R54, R78 to R80) -/

/-- R79: `0 <= signed(t) < PLEN`, the halt test's range and the range of toggle targets (R105). -/
def inProgram (s : Record W) (t : Word W) : Bool := decide (0 ≤ t.toInt) && decide (t.toInt < s.plen)

/-- R80: `pc <- pc + 1`, modulo `2^W`. -/
def advance (s : Record W) : Record W := s.withPc (s.pc + 1)

/-- R43: `FetchWord(k)`. -/
def word (s : Record W) (k : Nat) : RawWord W := s.prog.word s.port.epoch k

/-- R78: the word at the program counter. On an index of the program `signed` and `unsigned` agree. -/
def fetch (s : Record W) : RawWord W := s.word s.pc.toNat

/-- R43: `ToggleKind(k, kind)`: the KIND field of `P[k]` is replaced, every other bit is kept. -/
def toggleKind (s : Record W) (k : Nat) (kind : BitVec 3) : Record W :=
  s.withProg (s.prog.write k (setKindField (s.word k) kind))

/-- R134: every word of `P[0..PLEN-1]` was written since reset. -/
def programWritten (s : Record W) : Bool := (List.range s.plen).all (fun k => (s.prog.find? k).isSome)

/-! ## Run status (R23, R88 to R91) -/

/-- R27: what a host read while RUNNING can see of this state. -/
def snapshot (s : Record W) : Boundary W := { x := s.x, pc := s.pc, prog := s.prog }

/-- R27: the state is an instruction boundary of the run. -/
def markBoundary (s : Record W) : Record W :=
  s.withPort { s.port with boundaries := s.snapshot :: s.port.boundaries }

/-- R88: `STATE <- RUNNING`; the run's boundaries start with this one. -/
def beginRun (s : Record W) : Record W :=
  (s.withRunState .running).withPort { s.port with boundaries := [s.snapshot] }

/-- R79, R90, R91, R118: `STATE` goes to a value other than RUNNING; a pending STOP is cleared (R30). -/
def endRun (s : Record W) (r : RunState) : Record W :=
  ((s.withRunState r).withStop false).withPort { s.port with boundaries := [] }

end Record

/-! ## Taking a fault (R114, R118) -/

/-- R114: the CAUSE code of a fault. -/
def causeCode : CoreFault W → BitVec 4
  | .illegalKind _ => 1
  | .reservedBits => 2
  | .badRegister _ => 3
  | .toggleUnmapped _ => 4

/-- R114: the FINFO value of a fault. `zext_W(KIND)` states no value at W = 2 (log entry 21). -/
def faultInfo : CoreFault W → Word W
  | .illegalKind kind => if 3 ≤ W then kind.setWidth W else Config.narrowKindInfo W kind
  | .reservedBits => 0
  | .badRegister .A => 0
  | .badRegister .B => 1
  | .toggleUnmapped t => t

/-- R118: fault entry. `x`, `P` and `pc` keep their values; CAUSE, FINFO and STATE = FAULTED are written; a pending STOP
is cleared. -/
def raise (f : CoreFault W) (s : Record W) : Record W :=
  (s.endRun .faulted).withFault (causeCode f) (faultInfo f)

/-- R121, R131: reset, the only way out of FAULTED (there is no trap return). Every field goes to its reset value, the
program store becomes unspecified (a new epoch of free values), and the hardware's parameters W, NREG and PMAX stay.
The accesses the host has yet to make and the answers it has already had are the host's and stay (log entry 15). -/
def resetCore (s : Record W) : Record W :=
  { Record.resetAt W s.nreg s.pmax with
    port := { s.port with boundaries := [], epoch := s.port.epoch + 1 } }

end Sys2Proof.Machine
end

