-- ==== Sys2Proof/Machine/Operands.lean ====
section
/-!
DEFINITION. Machine/Operands.lean: operand resolution (40_step.md R83 to R86). Both operand forms are here, once.
-/

namespace Sys2Proof.Machine

variable {W : Nat}

/-- R65, R84: `val(op)`, the resolved W-bit value: an immediate's two's-complement pattern, or the register's value. -/
def val (op : Operand) (s : Record W) : Word W :=
  match op with
  | .imm k => BitVec.ofInt W k
  | .reg i => s.readX i

/-- R85: `ridx(op)`; `none` is the sentinel NOT_A_REGISTER, whose number is not observable. -/
def ridx : Operand → Option Nat
  | .imm _ => none
  | .reg i => some i

/-- R86: `WriteIfReg(op, v)`: an immediate destination is silently skipped. -/
def writeIfReg (op : Operand) (v : Word W) (s : Record W) : Record W :=
  match ridx op with
  | some i => s.writeX i v
  | none => s

/-- R94, R95: the register an operand names, if it names one, is replaced by `f` of its value. -/
def updateIfReg (op : Operand) (f : Word W → Word W) (s : Record W) : Record W :=
  match ridx op with
  | some i => s.writeX i (f (s.readX i))
  | none => s

/-- R83, R117: a register operand with an index `>= NREG` raises BAD_REGISTER for its slot, before any effect.
The decoder has made this check already (R68); here it gives the meaning of a term that no word decodes to
(log entry 11). -/
def guardReg (slot : Slot) (op : Operand) (s : Record W) (body : Record W) : Record W :=
  if op.inFile s.nreg then body else raise (.badRegister slot) s

end Sys2Proof.Machine
end

