-- ==== Sys2Proof/Machine/Flags.lean ====
section
/-!
DEFINITION. Machine/Flags.lean: the CORE has no flags, condition codes or predicates (10_state.md R29). What stands here
is the one test an instruction makes, `jnz`'s test of a resolved value against zero (R96, R100).
-/

namespace Sys2Proof.Machine

/-- R100: all W bits of the value are zero. -/
def isZero {W : Nat} (v : Word W) : Bool := decide (v = 0)

end Sys2Proof.Machine
end

