-- ==== Sys2Proof/Machine/Alu.lean ====
section
/-!
DEFINITION. Machine/Alu.lean: the meanings of `cpy`, `inc` and `dec` (41_alu.md).
-/

namespace Sys2Proof.Machine

/-- R93: `cpy src dst`. -/
def execCpy (src dst : Operand) : State → Result
  | ⟨W, s⟩ => .next ⟨W, guardReg .A src s (guardReg .B dst s (writeIfReg dst (val src s) s).advance)⟩

/-- R94: `inc x`. -/
def execInc (x : Operand) : State → Result
  | ⟨W, s⟩ => .next ⟨W, guardReg .A x s (updateIfReg x (fun v => v + 1) s).advance⟩

/-- R95: `dec x`. -/
def execDec (x : Operand) : State → Result
  | ⟨W, s⟩ => .next ⟨W, guardReg .A x s (updateIfReg x (fun v => v - 1) s).advance⟩

end Sys2Proof.Machine
end

