-- ==== Sys2Proof/Machine/Branch.lean ====
section
/-!
DEFINITION. Machine/Branch.lean: the meaning of `jnz` (42_branch.md).
-/

namespace Sys2Proof.Machine

/-- R100: `jnz x y`; the offset counts from the index of the `jnz` itself (R101). -/
def execJnz (x y : Operand) : State → Result
  | ⟨W, s⟩ => .next ⟨W, guardReg .A x s (guardReg .B y s
      (if isZero (val x s) then s.advance else s.withPc (s.pc + val y s)))⟩

end Sys2Proof.Machine
end

