-- ==== Sys2Proof/Machine/Toggle.lean ====
section
/-!
DEFINITION. Machine/Toggle.lean: the toggle map and the meaning of `tgl` (43_toggle.md).
-/

namespace Sys2Proof.Machine

/-- R108: the toggle map, total over the five kinds and separate from the step. -/
def toggle : Kind → Kind
  | .inc => .dec
  | .dec => .inc
  | .tgl => .inc
  | .jnz => .cpy
  | .cpy => .jnz

/-- R105: the toggle target `pc + val(x)`, modulo `2^W`. -/
def toggleTarget {W : Nat} (x : Operand) (s : Record W) : Word W := s.pc + val x s

/-- R105 to R109: `tgl x`. -/
def execTgl (x : Operand) : State → Result
  | ⟨W, s⟩ => .next ⟨W, guardReg .A x s
      (if s.inProgram (toggleTarget x s) then
        match Kind.ofCode (kindField (s.word (toggleTarget x s).toNat)) with
        | none => raise (.toggleUnmapped (toggleTarget x s)) s
        | some k => (s.toggleKind (toggleTarget x s).toNat (toggle k).code).advance
      else s.advance)⟩

end Sys2Proof.Machine
end

