-- ==== Sys2Proof/Machine/Dispatch.lean ====
section
/-!
DEFINITION. Machine/Dispatch.lean: one arm per instruction of opcode_table.json (40_step.md R77, the `case kind of`).
-/

namespace Sys2Proof.Machine

/-- R77: the effect of one decoded instruction, its next program counter included. -/
def exec (i : Instr) (s : State) : Host.Outcome State Fault Refusal :=
  match i with
  | .cpy src dst => Sys2Proof.Machine.execCpy src dst s
  | .inc x => Sys2Proof.Machine.execInc x s
  | .dec x => Sys2Proof.Machine.execDec x s
  | .jnz x y => Sys2Proof.Machine.execJnz x y s
  | .tgl x => Sys2Proof.Machine.execTgl x s

end Sys2Proof.Machine
end

