-- ==== Sys2Proof/Machine/Sequencer.lean ====
section
/-!
DEFINITION. Machine/Sequencer.lean: the sequencer's step, the run loop and the host commands (40_step.md R76 to R92).
-/

namespace Sys2Proof.Machine

variable {W : Nat}

/-- What follows an operation that answered a next state is done to the record of that state. -/
def onRecord (f : {W : Nat} → Record W → Record W) (r : Result) : Result :=
  match r with
  | .next t => .next (f t.record).state
  | .fault r => .fault r
  | .refused r => .refused r

/-- R77: `Step()`: fetch, decode, execute. It is entered only with `pc` in the program (R79). -/
def performStep (s : Record W) : Result :=
  match decode s.nreg s.fetch with
  | .error f => .next (raise f s).state
  | .ok i => exec i s.state

/-- R88: what the run loop does after `Step()`: stop on a fault, halt when `pc` has left the program, go to IDLE on a
pending STOP, else go on. It is given the state after a step begun in a state that is not FAULTED. -/
def finishRunStep (t : Record W) : Record W :=
  if t.runState = .faulted then t
  else if ¬ t.inProgram t.pc then t.endRun .halted
  else if t.stopPending then t.endRun .idle
  else t.markBoundary

/-- R90: what the STEP command does after `Step()`. -/
def finishSingleStep (t : Record W) : Record W :=
  if t.runState = .faulted then t
  else if t.inProgram t.pc then t.endRun .idle
  else t.endRun .halted

/-- R88: one turn of the run loop. A `pc` outside the program halts without a fetch (R79; log entry 14). -/
def runStep (s : Record W) : Result :=
  if s.inProgram s.pc then onRecord finishRunStep (performStep s)
  else .next (s.endRun .halted).state

/-- One step of the CORE itself: a turn of the run loop while RUNNING; in IDLE, HALTED and FAULTED it waits for the host
(R113, R129, R132; log entry 9). -/
def tick (s : Record W) : Result :=
  match s.runState with
  | .running => runStep s
  | .idle => .next s.state
  | .halted => .next s.state
  | .faulted => .next s.state

/-! ## Host commands (R87) -/

/-- R87: RUN, RESUME and STEP are accepted in IDLE and HALTED; so are the host's writes (R26, R27). -/
def hostMayWrite (s : Record W) : Bool := decide (s.runState = .idle) || decide (s.runState = .halted)

/-- R89: RESUME: halt if `pc` is outside the program, else start running. A launch over a program with an unwritten word
is refused (R134; log entry 5). -/
def resume (s : Record W) : Result :=
  if ¬ s.inProgram s.pc then .next (s.endRun .halted).state
  else if ¬ s.programWritten then .refused .unwrittenProgram
  else .next s.beginRun.state

/-- R88: RUN: RESUME from index 0. -/
def run (s : Record W) : Result := resume (s.withPc 0)

/-- R90: STEP: one instruction at the current `pc`, in one indivisible step (log entry 16). -/
def singleStep (s : Record W) : Result :=
  if ¬ s.inProgram s.pc then .next (s.endRun .halted).state
  else if ¬ s.programWritten then .refused .unwrittenProgram
  else onRecord finishSingleStep (performStep s)

/-- R91: STOP: a STOP becomes pending. -/
def stop (s : Record W) : Result := .next (s.withStop true).state

/-- R87: a write of command code `c` to COMMAND; a command not accepted in the current STATE has no effect. -/
def command (c : BitVec 3) (s : Record W) : Result :=
  match c.toNat with
  | 1 => if hostMayWrite s then run s else .next s.state
  | 2 => if hostMayWrite s then resume s else .next s.state
  | 3 => if hostMayWrite s then singleStep s else .next s.state
  | 4 => if s.runState = .running then stop s else .next s.state
  | _ => .next s.state

end Sys2Proof.Machine
end

