-- ==== Sys2Proof/Machine/HostAccess.lean ====
section
/-!
DEFINITION. Machine/HostAccess.lean: the host port: control registers, indexed access to `x` and `P`, and reset
(10_state.md R26, R27; 70_reset_and_hazards.md R131).
-/

namespace Sys2Proof.Machine

variable {W : Nat}

/-! ## Reads -/

/-- R23: the 2-bit code of the run status. -/
def runStateCode : RunState → BitVec 2
  | .idle => 0
  | .running => 1
  | .halted => 2
  | .faulted => 3

/-- R26: STATUS: STATE in bits [1:0], CAUSE in bits [7:4], every other bit 0; of these, the W bits a control register has
(log entry 21). -/
def statusWord (s : Record W) : Word W :=
  (s.cause ++ (0 : BitVec 2) ++ runStateCode s.runState).setWidth W

/-- R27: the instruction boundary whose `x`, `P` and `pc` a host read returns: while RUNNING a free draw from those of the
run (log entry 7), in every other STATE the current one. -/
def readView (s : Record W) : Boundary W :=
  if s.runState = .running then
    s.port.boundaries.getD (Config.readDraw s.port.draws % s.port.boundaries.length) s.snapshot
  else s.snapshot

/-- R26: the value a read of control register `no` returns; COMMAND and the numbers above it read 0 (log entry 12). -/
def controlValue (no : Nat) (s : Record W) : Word W :=
  match no with
  | 0 => statusWord s
  | 1 => (readView s).pc
  | 2 => BitVec.ofNat W s.plen
  | 3 => s.finfo
  | 4 => BitVec.ofNat W s.nreg
  | 5 => BitVec.ofNat W s.pmax
  | _ => 0

/-- A host read answers `r`; reading changes nothing the spec names (R47). -/
def answer (r : HostReply W) (s : Record W) : Record W :=
  s.withPort { s.port with replies := r :: s.port.replies, draws := s.port.draws + 1 }

/-- R27: a host read of `x[i]`. -/
def hostReadX (i : Nat) (s : Record W) : Result :=
  if i < s.nreg then .next (answer (.word ((readView s).x.getD i 0)) s).state else .refused .noSuchPortIndex

/-- R27: a host read of `P[k]`. -/
def hostReadP (k : Nat) (s : Record W) : Result :=
  if k < s.pmax then .next (answer (.instruction ((readView s).prog.word s.port.epoch k)) s).state
  else .refused .noSuchPortIndex

/-! ## Writes -/

/-- R26, D25: a write of PLEN; a value `> PMAX` is ignored. -/
def writePlen (v : Word W) (s : Record W) : Record W := if v.toNat ≤ s.pmax then s.withPlen v.toNat else s

/-- R26: a write of control register `no`; read-only registers and the numbers above COMMAND ignore it. The command is
the low three bits of a write to COMMAND (log entry 17). -/
def hostWriteControl (no : Nat) (v : Word W) (s : Record W) : Result :=
  match no with
  | 1 => if hostMayWrite s then .next (s.withPc v).state else .next s.state
  | 2 => if hostMayWrite s then .next (writePlen v s).state else .next s.state
  | 6 => command (v.extractLsb' 0 3) s
  | _ => .next s.state

/-- R27: a host write of `x[i]`; it has no effect while RUNNING or FAULTED. -/
def hostWriteX (i : Nat) (v : Word W) (s : Record W) : Result :=
  if i < s.nreg then (if hostMayWrite s then .next (s.writeX i v).state else .next s.state) else .refused .noSuchPortIndex

/-- R27, R44: a host write of `P[k]`; it has no effect while RUNNING or FAULTED. -/
def hostWriteP (k : Nat) (w : RawWord W) (s : Record W) : Result :=
  if k < s.pmax then (if hostMayWrite s then .next (s.withProg (s.prog.write k w)).state else .next s.state)
  else .refused .noSuchPortIndex

/-! ## One access -/

/-- The effect of one host access, or of the CORE's own step when the host leaves it one (log entry 6). -/
def hostAccess (a : HostAccess W) (s : Record W) : Result :=
  match a with
  | .tick => tick s
  | .reset => .next (resetCore s).state
  | .readControl no => .next (answer (.word (controlValue no s)) s).state
  | .writeControl no v => hostWriteControl no v s
  | .readX i => hostReadX i s
  | .writeX i v => hostWriteX i v s
  | .readP k => hostReadP k s
  | .writeP k w => hostWriteP k w s

/-- The state once the host has made its next access. -/
def dropPending (rest : List (HostAccess W)) (s : Record W) : Record W := s.withPort { s.port with pending := rest }

/-- One step of the machine: the host's next access if one is pending, else a step of the CORE (log entry 6). -/
def stepOnce (s : Record W) : Result :=
  match s.port.pending with
  | [] => tick s
  | a :: rest => hostAccess a (dropPending rest s)

/-! ## Placing one instruction -/

/-- Where the next instruction is placed: the current `pc` if it is an index of the store, else index 0. -/
def fetchIndex (s : Record W) : Nat := if 0 ≤ s.pc.toInt ∧ s.pc.toInt < s.pmax then s.pc.toNat else 0

/-- The state in which the very next step runs word `w`: it stands in the program at `pc`, the CORE is RUNNING and the
host makes no access (log entry 8). -/
def placeInstruction (w : RawWord W) (s : Record W) : Record W :=
  let k := fetchIndex s
  let t := ((s.withPc (BitVec.ofNat W k)).withPlen (max s.plen (k + 1))).withProg (s.prog.write k w)
  (dropPending [] t).beginRun

end Sys2Proof.Machine
end

