-- ==== Sys2Proof/Machine/Step.lean ====
section
/-!
DEFINITION. Machine/Step.lean: the step function, and the placement of one instruction where it fetches.
-/

namespace Sys2Proof.Machine

/-- One step of the machine: a host access, or one step of the CORE. -/
def step (s : State) : Host.Outcome State Fault Refusal := stepOnce s.record

/-- `s` with the instruction word of `nbits` bits `w` placed so that the very next step fetches and runs it
(log entry 8). -/
def State.withFetchWord (s : State) (nbits w : Nat) : State :=
  (placeInstruction (BitVec.ofNat _ (w % 2 ^ nbits)) s.record).state

end Sys2Proof.Machine
end

