-- ==== Sys2Proof/Safety.lean ====
section
/-!
DEFINITION. Safety.lean: the words claims are stated in: the invariant of the machine's data, what the evidence of a
fault is, what a step may change in a word, and the source's own machine over instruction variants, which knows no
encoding.
-/

namespace Sys2Proof

open Machine

variable {W : Nat}

/-! ## The invariant -/

/-- What every state of a run satisfies: the parameters are legal (R8), PLEN fits the store (R21), the store is in its
form and within capacity (R41), the fault fields agree with STATE (R24, R25, R114), a pending STOP and the run's
boundaries exist only while RUNNING (R27, R30), and a RUNNING machine has its `pc` in a program that was written
(R79, R134). -/
structure Inv (s : Record W) : Prop where
  legal : Config.legal W s.nreg s.pmax = true
  plen_le : s.plen ≤ s.pmax
  prog_wf : s.prog.wf
  prog_bound : ∀ p ∈ s.prog, p.1 < s.pmax
  faulted_iff : s.runState = .faulted ↔ s.cause ≠ 0
  cause_le : s.cause.toNat ≤ 4
  finfo_zero : s.cause = 0 → s.finfo = 0
  stop_running : s.stopPending = true → s.runState = .running
  running_pc : s.runState = .running → s.inProgram s.pc = true
  running_written : s.runState = .running → s.programWritten = true
  running_boundary : s.runState = .running → s.port.boundaries.head? = some s.snapshot
  boundaries_running : s.runState ≠ .running → s.port.boundaries = []
  boundary_shape : ∀ b ∈ s.port.boundaries,
    b.x.length = s.nreg ∧ s.inProgram b.pc = true ∧ b.prog.map Prod.fst = s.prog.map Prod.fst

/-! ## Faults -/

/-- The instruction at `pc` raises fault `f`: at decode (R68) or as a `tgl` of a word with no kind (R109). -/
def Raises (s : Record W) (f : CoreFault W) : Prop :=
  decode s.nreg s.fetch = .error f ∨
  ∃ x, decode s.nreg s.fetch = .ok (.tgl x) ∧ s.inProgram (toggleTarget x s) = true ∧
    5 ≤ (kindField (s.word (toggleTarget x s).toNat)).toNat ∧ f = .toggleUnmapped (toggleTarget x s)

/-- R118, R121: a FAULTED machine still holds its evidence: `pc` is in the program, and the instruction there raises the
fault that CAUSE and FINFO report. -/
def FaultEvidence (s : Record W) : Prop :=
  s.runState = .faulted →
    s.inProgram s.pc = true ∧ ∃ f, Raises s f ∧ s.cause = causeCode f ∧ s.finfo = faultInfo f

/-! ## Frames -/

/-- R57, R107: two words agree on every bit outside the KIND field: RSV and both operands. -/
def SameButKind (v w : RawWord W) : Prop :=
  rsvField v = rsvField w ∧ aTag v = aTag w ∧ aVal v = aVal w ∧ bField v = bField w

/-- The program store reads the same at every index. -/
def SameProgram (s t : Record W) : Prop := ∀ k, t.word k = s.word k

/-- Everything an instruction that completes leaves alone but for `x`, `pc` and `P`: PLEN, STATE, CAUSE, FINFO, the
pending STOP, the parameters NREG and PMAX and the host's side. -/
def SameControl (s t : Record W) : Prop :=
  t.plen = s.plen ∧ t.runState = s.runState ∧ t.cause = s.cause ∧ t.finfo = s.finfo ∧
  t.stopPending = s.stopPending ∧ t.nreg = s.nreg ∧ t.pmax = s.pmax ∧ t.port = s.port

/-- Everything the record of R31 holds but STATE, the pending STOP and the host's side reads the same. -/
def SameData (s t : Record W) : Prop :=
  t.x = s.x ∧ t.pc = s.pc ∧ t.plen = s.plen ∧ t.prog = s.prog ∧ t.cause = s.cause ∧ t.finfo = s.finfo ∧ t.pmax = s.pmax

/-- Nothing the record of R31 holds differs: what a host read leaves as it is (R27, R47). -/
def SameRecord (s t : Record W) : Prop :=
  SameData s t ∧ t.runState = s.runState ∧ t.stopPending = s.stopPending

/-- R44, R134: two states agree on all that a run depends on: the registers, `pc`, PLEN, the status fields, the pending
STOP, and the words of the program; words at and beyond PLEN may differ. -/
def AgreeOnTheRun (s t : Record W) : Prop :=
  t.x = s.x ∧ t.pc = s.pc ∧ t.plen = s.plen ∧ t.runState = s.runState ∧ t.cause = s.cause ∧ t.finfo = s.finfo ∧
  t.stopPending = s.stopPending ∧ t.port.pending = s.port.pending ∧ ∀ k, k < s.plen → t.word k = s.word k

/-! ## Host accesses -/

/-- The next step of the machine is a step of the CORE: the host makes no more accesses, or its next entry leaves the CORE
one step; `rest` is what the host does after it (log entry 6). -/
def CoreIsNext (s : Record W) (rest : List (HostAccess W)) : Prop :=
  s.port.pending = [] ∧ rest = [] ∨ s.port.pending = .tick :: rest

/-- R27: the index an access of the indexed port names exists; other accesses name none. -/
def PortIndexExists (s : Record W) : HostAccess W → Prop
  | .readX i => i < s.nreg
  | .writeX i _ => i < s.nreg
  | .readP k => k < s.pmax
  | .writeP k _ => k < s.pmax
  | .tick | .reset | .readControl _ | .writeControl _ _ => True

/-- R26, R87: the command code in a write of COMMAND. -/
def commandCode (v : Word W) : Nat := (v.extractLsb' 0 3).toNat

/-! ## The source's machine

The machine of the source (00_scope.md R13): registers, a program that is a list of tagged variants, and a program
counter. It is written from the transition table quoted in R93 to R105 and the toggle map of R108, over variants: it has
no words, no KIND field and no fault. -/

namespace Source

/-- R13: the source's Machine with its program counter. -/
structure Machine (W : Nat) where
  x : List (Word W)
  pc : Word W
  prog : List Instr
deriving DecidableEq, Repr

/-- R84: an operand's resolved value. -/
def value (x : List (Word W)) : Operand → Word W
  | .imm k => BitVec.ofInt W k
  | .reg i => x.getD i 0

/-- R86: a write that an immediate destination skips. -/
def put (x : List (Word W)) (op : Operand) (v : Word W) : List (Word W) :=
  match op with
  | .imm _ => x
  | .reg i => x.set i v

/-- R108, R112: the toggled variant: a new kind, the same operands in the same positions. -/
def toggled : Instr → Instr
  | .inc a => .dec a
  | .dec a => .inc a
  | .tgl a => .inc a
  | .jnz a b => .cpy a b
  | .cpy a b => .jnz a b

/-- R76, R13: the source's `step`; outside the program it does nothing, which is where its `run` has ended. -/
def step (m : Machine W) : Machine W :=
  if 0 ≤ m.pc.toInt ∧ m.pc.toInt < m.prog.length then
    match m.prog[m.pc.toNat]? with
    | none => m
    | some (.cpy a b) => { m with x := put m.x b (value m.x a), pc := m.pc + 1 }
    | some (.inc a) => { m with x := put m.x a (value m.x a + 1), pc := m.pc + 1 }
    | some (.dec a) => { m with x := put m.x a (value m.x a - 1), pc := m.pc + 1 }
    | some (.jnz a b) => { m with pc := if value m.x a = 0 then m.pc + 1 else m.pc + value m.x b }
    | some (.tgl a) =>
      let t := m.pc + value m.x a
      { m with
        prog := if 0 ≤ t.toInt ∧ t.toInt < m.prog.length then m.prog.modify t.toNat toggled else m.prog
        pc := m.pc + 1 }
  else m

/-- `n` steps of the source's machine. -/
def steps : Nat → Machine W → Machine W
  | 0, m => m
  | n + 1, m => steps n (step m)

/-- The CORE's state holds the source's machine `m`: the same registers and `pc`, and the program store holds the words
of `m`'s variants, all well-formed (R64). -/
def Represents (m : Machine W) (s : Record W) : Prop :=
  s.x = m.x ∧ s.pc = m.pc ∧ s.plen = m.prog.length ∧
  ∀ k i, m.prog[k]? = some i → s.word k = encode W i ∧ i.wellFormed W s.nreg = true

end Source

end Sys2Proof
end

