-- ==== Sys2Proof/Certificates/Slice0/Obligations.lean ====
section
/-!
DEFINITION. Certificates/Slice0/Obligations.lean: the statements for the provers. Each docstring names the rule of spec/
it formalises, or the rules it rests on. A statement about every `s : Record W` is about every CORE of width `W`, with
whatever NREG and PMAX it was built with (R8).
-/

open Sys2Proof Sys2Proof.Machine

/-! ## Encoding (30_encoding.md) -/

/-- R75, R73: decoding the word of a well-formed instruction gives the instruction back, for every W and NREG that R8
allows and every operand the encoding admits. -/
def Obligations.EncodeThenDecodeGivesTheInstruction : Prop :=
  ∀ (W nreg : Nat) (i : Instr), 2 ≤ W → nreg ≤ 2 ^ W → i.wellFormed W nreg = true → decode nreg (encode W i) = .ok i

/-- R75: assembling the decoded form of a word gives the word back, and what is decoded is well-formed. -/
def Obligations.DecodeThenEncodeGivesTheWord : Prop :=
  ∀ (W nreg : Nat) (w : RawWord W) (i : Instr), decode nreg w = .ok i → i.wellFormed W nreg = true ∧ encode W i = w

/-- R64: the words the decoder accepts are exactly the well-formed ones, said of their bits. -/
def Obligations.WordDecodesExactlyWhenWellFormed : Prop :=
  ∀ (W nreg : Nat) (w : RawWord W), (∃ i, decode nreg w = .ok i) ↔ wordWellFormed nreg w = true

/-- R68: the decoder's checks in their order, with the fault and its information, and its answer when all pass. At W = 2 a
KIND is wider than FINFO and its information is free (log entry 21). -/
def Obligations.DecoderChecksInOrder : Prop :=
  ∀ (W nreg : Nat) (w : RawWord W),
    let kind := (kindField w).toNat
    let oneOperand := kind = 1 ∨ kind = 2 ∨ kind = 4
    let aBad := aTag w = true ∧ nreg ≤ (aVal w).toNat
    let bBad := bTag w = true ∧ nreg ≤ (bVal w).toNat
    (5 ≤ kind → decode nreg w = .error (.illegalKind (kindField w))) ∧
    (kind < 5 → rsvField w ≠ 0 → decode nreg w = .error .reservedBits) ∧
    (rsvField w = 0 → oneOperand → bField w ≠ 0 → decode nreg w = .error .reservedBits) ∧
    (kind < 5 → rsvField w = 0 → (oneOperand → bField w = 0) → aBad → decode nreg w = .error (.badRegister .A)) ∧
    (kind = 0 ∨ kind = 3 → rsvField w = 0 → ¬ aBad → bBad → decode nreg w = .error (.badRegister .B)) ∧
    (rsvField w = 0 → ¬ aBad →
      (kind = 0 → ¬ bBad →
        decode nreg w = .ok (.cpy (operandOf (aTag w) (aVal w)) (operandOf (bTag w) (bVal w)))) ∧
      (kind = 1 → bField w = 0 → decode nreg w = .ok (.inc (operandOf (aTag w) (aVal w)))) ∧
      (kind = 2 → bField w = 0 → decode nreg w = .ok (.dec (operandOf (aTag w) (aVal w)))) ∧
      (kind = 3 → ¬ bBad →
        decode nreg w = .ok (.jnz (operandOf (aTag w) (aVal w)) (operandOf (bTag w) (bVal w)))) ∧
      (kind = 4 → bField w = 0 → decode nreg w = .ok (.tgl (operandOf (aTag w) (aVal w))))) ∧
    (3 ≤ W → faultInfo (W := W) (.illegalKind (kindField w)) = (kindField w).setWidth W) ∧
    faultInfo (W := W) .reservedBits = 0 ∧ faultInfo (W := W) (.badRegister .A) = 0 ∧
    faultInfo (W := W) (.badRegister .B) = 1

/-- R74: one worked encoding of each kind, at W = 32 and NREG = 4. -/
def Obligations.WorkedEncodingsDecode : Prop :=
  decode (W := 32) 4 0x01FFFFFFFF00000003 = .ok (.cpy (.imm (-1)) (.reg 3)) ∧
  decode (W := 32) 4 0x040000000E00000000 = .ok (.inc (.imm 7)) ∧
  decode (W := 32) 4 0x0A0000000200000000 = .ok (.dec (.reg 1)) ∧
  decode (W := 32) 4 0x0C00000002FFFFFFFE = .ok (.jnz (.imm 1) (.imm (-2))) ∧
  decode (W := 32) 4 0x120000000400000000 = .ok (.tgl (.reg 2))

/-- R69, R112: a well-formed word stays well-formed when it is toggled, and then decodes to the toggled kind with the same
operands in the same positions. -/
def Obligations.ToggledWordDecodesToToggledInstruction : Prop :=
  ∀ (W nreg : Nat) (w : RawWord W) (i : Instr), decode nreg w = .ok i →
    ∃ k, Kind.ofCode (kindField w) = some k ∧
      decode nreg (setKindField w (toggle k).code) = .ok (Source.toggled i)

/-! ## cpy, inc, dec (41_alu.md) -/

/-- R93: `cpy` copies the source's value into a register destination, writes nothing for an immediate one, and goes to the
next instruction; nothing else changes. -/
def Obligations.CpyCopiesTheValue : Prop :=
  ∀ (W : Nat) (src dst : Operand) (s : Record W), src.inFile s.nreg = true → dst.inFile s.nreg = true →
    ∃ t : Record W, exec (.cpy src dst) s.state = .next t.state ∧ t.pc = s.pc + 1 ∧
      (∀ i, dst = .reg i → t.readX i = val src s) ∧
      (∀ j, dst ≠ .reg j → t.readX j = s.readX j) ∧
      SameProgram s t ∧ SameControl s t

/-- R94, R97: `inc` adds one to a register, as exact integers reduced modulo `2^W` to the signed range, changes no register
for an immediate, and goes to the next instruction; nothing else changes. -/
def Obligations.IncAddsOneModulo : Prop :=
  ∀ (W : Nat) (x : Operand) (s : Record W), 2 ≤ W → x.inFile s.nreg = true →
    ∃ t : Record W, exec (.inc x) s.state = .next t.state ∧ t.pc = s.pc + 1 ∧
      (∀ i, x = .reg i → (t.readX i).toInt = Int.bmod ((s.readX i).toInt + 1) (2 ^ W)) ∧
      (∀ j, x ≠ .reg j → t.readX j = s.readX j) ∧
      SameProgram s t ∧ SameControl s t

/-- R95, R97: `dec` subtracts one from a register, as exact integers reduced modulo `2^W` to the signed range, changes no
register for an immediate, and goes to the next instruction; nothing else changes. -/
def Obligations.DecSubtractsOneModulo : Prop :=
  ∀ (W : Nat) (x : Operand) (s : Record W), 2 ≤ W → x.inFile s.nreg = true →
    ∃ t : Record W, exec (.dec x) s.state = .next t.state ∧ t.pc = s.pc + 1 ∧
      (∀ i, x = .reg i → (t.readX i).toInt = Int.bmod ((s.readX i).toInt - 1) (2 ^ W)) ∧
      (∀ j, x ≠ .reg j → t.readX j = s.readX j) ∧
      SameProgram s t ∧ SameControl s t

/-- R99: `cpy`, `inc` and `dec` change no program word, PLEN or status field, at most one register, and always set `pc` to
`pc + 1`. -/
def Obligations.AluChangesAtMostOneRegister : Prop :=
  ∀ (W : Nat) (i : Instr) (s : Record W),
    (∃ a b, i = .cpy a b) ∨ (∃ a, i = .inc a) ∨ (∃ a, i = .dec a) → i.registersExist s.nreg = true →
    ∃ t : Record W, exec i s.state = .next t.state ∧ t.pc = s.pc + 1 ∧ SameProgram s t ∧ t.plen = s.plen ∧
      t.runState = s.runState ∧ t.cause = s.cause ∧ t.finfo = s.finfo ∧
      ∃ r, ∀ j, j ≠ r → t.readX j = s.readX j

/-- R98: `inc r` followed by `dec r`, and `dec r` followed by `inc r`, leave every register at its original value,
the wrap point included. -/
def Obligations.IncAndDecUndoEachOther : Prop :=
  ∀ (W r : Nat) (s : Record W), r < s.nreg →
    (∃ t u : Record W, exec (.inc (.reg r)) s.state = .next t.state ∧ exec (.dec (.reg r)) t.state = .next u.state ∧
      u.x = s.x ∧ u.pc = s.pc + 1 + 1) ∧
    (∃ t u : Record W, exec (.dec (.reg r)) s.state = .next t.state ∧ exec (.inc (.reg r)) t.state = .next u.state ∧
      u.x = s.x ∧ u.pc = s.pc + 1 + 1)

/-- R82: the two forms the rule names: `cpy r r` leaves every register unchanged, and `jnz r r` with `r` non-zero jumps by
the value `r` held. -/
def Obligations.CpyAndJnzOfOneRegisterTwice : Prop :=
  ∀ (W r : Nat) (s : Record W), r < s.nreg →
    (∃ t : Record W, exec (.cpy (.reg r) (.reg r)) s.state = .next t.state ∧ t.x = s.x) ∧
    (s.readX r ≠ 0 →
      ∃ t : Record W, exec (.jnz (.reg r) (.reg r)) s.state = .next t.state ∧ t.pc = s.pc + s.readX r)

/-! ## jnz (42_branch.md) -/

/-- R100: `jnz` goes to the next instruction when its condition is zero and by the offset's value when it is not; no
register, program word or status changes. -/
def Obligations.JnzBranchesOnNonZero : Prop :=
  ∀ (W : Nat) (x y : Operand) (s : Record W), x.inFile s.nreg = true → y.inFile s.nreg = true →
    ∃ t : Record W, exec (.jnz x y) s.state = .next t.state ∧
      (val x s = 0 → t.pc = s.pc + 1) ∧ (val x s ≠ 0 → t.pc = s.pc + val y s) ∧
      t.x = s.x ∧ SameProgram s t ∧ SameControl s t

/-- R101: the target of a taken branch, for every condition and every offset, register or immediate, is the index of the
`jnz` plus the offset: `jnz 1 1` goes to `pc + 1` and `jnz 1 -1` to the instruction before. The two laws: a condition
`Imm(0)` advances `pc` by 1 whatever the second operand is, and a non-zero register condition with `Imm(n)` advances it
by exactly `n`. -/
def Obligations.JnzTargetIsRelativeToItself : Prop :=
  ∀ (W : Nat) (s : Record W), 2 ≤ W →
    (∀ x y : Operand, x.inFile s.nreg = true → y.inFile s.nreg = true → val x s ≠ 0 →
      ∃ t : Record W, exec (.jnz x y) s.state = .next t.state ∧ t.pc = s.pc + val y s) ∧
    (∃ t : Record W, exec (.jnz (.imm 1) (.imm 1)) s.state = .next t.state ∧ t.pc = s.pc + 1) ∧
    (∃ t : Record W, exec (.jnz (.imm 1) (.imm (-1))) s.state = .next t.state ∧ t.pc = s.pc - 1) ∧
    (∀ y : Operand, y.inFile s.nreg = true →
      ∃ t : Record W, exec (.jnz (.imm 0) y) s.state = .next t.state ∧ t.pc = s.pc + 1) ∧
    (∀ (r : Nat) (n : Int), r < s.nreg → s.readX r ≠ 0 →
      ∃ t : Record W, exec (.jnz (.reg r) (.imm n)) s.state = .next t.state ∧ t.pc = s.pc + BitVec.ofInt W n)

/-- R80: next-pc sums are modulo `2^W`, and for a `pc` in the program the halt test on the wrapped sum gives the verdict of
the exact integer sum. -/
def Obligations.WrappedPcGivesTheExactHaltVerdict : Prop :=
  ∀ (W : Nat) (s : Record W) (v : Word W), 2 ≤ W → s.plen ≤ 2 ^ (W - 1) → s.inProgram s.pc = true →
    (s.pc + v).toInt = Int.bmod (s.pc.toInt + v.toInt) (2 ^ W) ∧
    (s.inProgram (s.pc + v) = true ↔ 0 ≤ s.pc.toInt + v.toInt ∧ s.pc.toInt + v.toInt < s.plen) ∧
    (s.inProgram (s.pc + 1) = true ↔ s.pc.toInt + 1 < s.plen)

/-- R102: a taken `jnz` with offset zero repeats for ever: with no STOP and no host access the CORE stays RUNNING at the
same `pc` with the same registers and program, for every number of steps. -/
def Obligations.SelfBranchHangs : Prop :=
  ∀ (W : Nat) (s : Record W) (x y : Operand), s.runState = .running → s.port.pending = [] → s.stopPending = false →
    s.inProgram s.pc = true → decode s.nreg s.fetch = .ok (.jnz x y) → val x s ≠ 0 → val y s = 0 →
    ∀ n, ∃ t : Record W, Host.Core.run core n s.state = .next t.state ∧ t.runState = .running ∧ t.pc = s.pc ∧
      t.x = s.x ∧ t.prog = s.prog

/-! ## tgl (43_toggle.md) -/

/-- R107: a toggle whose target is in the program and has a kind rewrites the target's KIND by the toggle map; operand A,
operand B and RSV of the target keep their bits, and no other word, no register, not PLEN and no status changes. -/
def Obligations.TglRewritesOnlyTheTargetKind : Prop :=
  ∀ (W : Nat) (x : Operand) (s : Record W) (k : Kind), x.inFile s.nreg = true → s.inProgram (s.pc + val x s) = true →
    Kind.ofCode (kindField (s.word (s.pc + val x s).toNat)) = some k →
    ∃ t : Record W, exec (.tgl x) s.state = .next t.state ∧ t.pc = s.pc + 1 ∧
      kindField (t.word (s.pc + val x s).toNat) = (toggle k).code ∧
      SameButKind (s.word (s.pc + val x s).toNat) (t.word (s.pc + val x s).toNat) ∧
      (∀ j, j ≠ (s.pc + val x s).toNat → t.word j = s.word j) ∧
      t.x = s.x ∧ SameControl s t

/-- R106: a toggle whose target is outside the program changes nothing and raises nothing; `pc` advances by 1. -/
def Obligations.TglOutOfRangeChangesNothing : Prop :=
  ∀ (W : Nat) (x : Operand) (s : Record W), x.inFile s.nreg = true → s.inProgram (s.pc + val x s) = false →
    ∃ t : Record W, exec (.tgl x) s.state = .next t.state ∧ t.pc = s.pc + 1 ∧ t.x = s.x ∧ SameProgram s t ∧
      SameControl s t

/-- R109: a toggle of an in-range word with KIND 5, 6 or 7 raises TOGGLE_UNMAPPED with the target index, and changes
nothing else. -/
def Obligations.TglOfNoKindFaults : Prop :=
  ∀ (W : Nat) (x : Operand) (s : Record W), x.inFile s.nreg = true → s.inProgram (s.pc + val x s) = true →
    5 ≤ (kindField (s.word (s.pc + val x s).toNat)).toNat →
    ∃ t : Record W, exec (.tgl x) s.state = .next t.state ∧ t.runState = .faulted ∧ t.cause = 4 ∧
      t.finfo = s.pc + val x s ∧ t.x = s.x ∧ t.pc = s.pc ∧ t.plen = s.plen ∧ t.prog = s.prog

/-- R108: the toggle map, by its table. -/
def Obligations.ToggleMapIsTheTable : Prop :=
  toggle .inc = .dec ∧ toggle .dec = .inc ∧ toggle .tgl = .inc ∧ toggle .jnz = .cpy ∧ toggle .cpy = .jnz ∧
  (toggle .inc).code = 2 ∧ (toggle .dec).code = 1 ∧ (toggle .tgl).code = 1 ∧ (toggle .jnz).code = 0 ∧
  (toggle .cpy).code = 3

/-- R110: the map is not an involution: `inc` and `dec` swap, and so do `cpy` and `jnz`, but a `tgl` toggled twice becomes
`inc` and then `dec`; no kind maps to `tgl`. -/
def Obligations.ToggleMapIsNotAnInvolution : Prop :=
  toggle .inc = .dec ∧ toggle .dec = .inc ∧ toggle .cpy = .jnz ∧ toggle .jnz = .cpy ∧
  toggle .tgl = .inc ∧ toggle (toggle .tgl) = .dec ∧ (∀ k, toggle k ≠ .tgl) ∧ ¬ ∀ k, toggle (toggle k) = k

/-- R110, R115: no instruction makes a word a `tgl` that was none, or gives a word a KIND that names no instruction. -/
def Obligations.TogglingMakesNoToggleAndNoIllegalKind : Prop :=
  ∀ (W : Nat) (i : Instr) (s : Record W), ∃ t : Record W, exec i s.state = .next t.state ∧
    ∀ k, (kindField (t.word k) = 4 → kindField (s.word k) = 4) ∧
      (5 ≤ (kindField (t.word k)).toNat → t.word k = s.word k)

/-- R50, R111, R52: a toggle of the next instruction is seen by the very next fetch, which runs the toggled instruction;
a toggle of the `tgl`'s own word makes it an `inc` of the same operand for later fetches. -/
def Obligations.ToggleIsSeenByTheNextFetch : Prop :=
  ∀ (W : Nat) (s : Record W) (a : Operand), s.runState = .running → s.port.pending = [] → s.stopPending = false →
    s.inProgram s.pc = true → s.inProgram (s.pc + 1) = true → decode s.nreg s.fetch = .ok (.tgl a) →
    (∀ i, val a s = 1 → decode s.nreg (s.word (s.pc + 1).toNat) = .ok i →
      ∃ t u : Record W, step s.state = .next t.state ∧ t.runState = .running ∧ t.pc = s.pc + 1 ∧ t.x = s.x ∧
        exec (Source.toggled i) t.state = .next u.state ∧ step t.state = .next (finishRunStep u).state) ∧
    (val a s = 0 →
      ∃ t : Record W, step s.state = .next t.state ∧ t.runState = .running ∧
        decode t.nreg (t.word s.pc.toNat) = .ok (.inc a))

/-! ## What instructions may change (10_state.md) -/

/-- R17, R31, R57: an instruction always answers a next state; it changes at most one register, and only `cpy`, `inc` and
`dec` change one; a word it changes is a word of the program, changed by a `tgl`, and in its KIND field only; it changes
neither PLEN nor the parameters nor the number of registers. -/
def Obligations.InstructionsChangeOnlyWhatTheyMay : Prop :=
  ∀ (W : Nat) (i : Instr) (s : Record W), ∃ t : Record W, exec i s.state = .next t.state ∧
    t.plen = s.plen ∧ t.pmax = s.pmax ∧ t.nreg = s.nreg ∧
    (∃ r, ∀ j, j ≠ r → t.readX j = s.readX j) ∧
    (i.kind = .jnz ∨ i.kind = .tgl → t.x = s.x) ∧
    (∀ k, t.word k ≠ s.word k → i.kind = .tgl ∧ k < s.plen ∧ SameButKind (s.word k) (t.word k))

/-- R83, R117: an instruction with a register operand whose index is `>= NREG` raises BAD_REGISTER and writes nothing else;
FINFO is 1 exactly when the first operand exists, so that the fault is the second's. That a term no word decodes to
behaves so is log entry 11. -/
def Obligations.MissingRegisterRaisesBadRegister : Prop :=
  ∀ (W : Nat) (i : Instr) (s : Record W), 2 ≤ W → i.registersExist s.nreg = false →
    ∃ t : Record W, exec i s.state = .next t.state ∧ t.runState = .faulted ∧ t.cause = 3 ∧ t.x = s.x ∧ t.pc = s.pc ∧
      t.plen = s.plen ∧ t.prog = s.prog ∧ (t.finfo = 0 ∨ t.finfo = 1) ∧
      (t.finfo = 1 ↔ ∃ a b, (i = .cpy a b ∨ i = .jnz a b) ∧ a.inFile s.nreg = true)

/-! ## Faults (60_exceptions.md) -/

/-- R114: the CAUSE code and the FINFO value of each fault. At W = 2 a KIND is wider than FINFO and its value is free (log
entry 21). -/
def Obligations.FaultCodesAndInformation : Prop :=
  ∀ W : Nat,
    (∀ k, causeCode (W := W) (.illegalKind k) = 1 ∧
      (3 ≤ W → (faultInfo (W := W) (.illegalKind k)).toNat = k.toNat)) ∧
    (causeCode (W := W) .reservedBits = 2 ∧ faultInfo (W := W) .reservedBits = 0) ∧
    (causeCode (W := W) (.badRegister .A) = 3 ∧ faultInfo (W := W) (.badRegister .A) = 0) ∧
    (causeCode (W := W) (.badRegister .B) = 3 ∧ faultInfo (W := W) (.badRegister .B) = 1) ∧
    (∀ t : Word W, causeCode (.toggleUnmapped t) = 4 ∧ faultInfo (.toggleUnmapped t) = t)

/-- R118: fault entry. When the step of a RUNNING CORE raises a fault, at decode or in a toggle, nothing the step would
have written is written, `pc` keeps the index of the faulting instruction, CAUSE and FINFO report the fault, STATE is
FAULTED and a pending STOP is cleared. How the host leaves the CORE its step is log entry 6. -/
def Obligations.FaultEntryIsPrecise : Prop :=
  ∀ (W : Nat) (s : Record W) (rest : List (HostAccess W)) (f : CoreFault W), s.runState = .running →
    CoreIsNext s rest → s.inProgram s.pc = true → Raises s f →
    ∃ t : Record W, step s.state = .next t.state ∧ t.runState = .faulted ∧ t.cause = causeCode f ∧
      t.finfo = faultInfo f ∧ t.stopPending = false ∧ t.x = s.x ∧ t.pc = s.pc ∧ t.plen = s.plen ∧ t.prog = s.prog

/-- R90, R118: fault entry of a STEP command. When the instruction a STEP executes raises a fault, at decode or in a
toggle, nothing the instruction would have written is written, `pc` keeps its index, CAUSE and FINFO report the fault and
STATE is FAULTED with no STOP pending. -/
def Obligations.StepCommandFaultEntryIsPrecise : Prop :=
  ∀ (W : Nat) (s : Record W) (v : Word W) (rest : List (HostAccess W)) (f : CoreFault W),
    s.runState = .idle ∨ s.runState = .halted → s.port.pending = .writeControl 6 v :: rest → commandCode v = 3 →
    s.programWritten = true → s.inProgram s.pc = true → Raises s f →
    ∃ t : Record W, step s.state = .next t.state ∧ t.runState = .faulted ∧ t.cause = causeCode f ∧
      t.finfo = faultInfo f ∧ t.stopPending = false ∧ t.x = s.x ∧ t.pc = s.pc ∧ t.plen = s.plen ∧ t.prog = s.prog

/-- R121: whatever the host does short of a reset, a FAULTED machine stays FAULTED with its registers, program, `pc`, PLEN,
CAUSE and FINFO as they are. -/
def Obligations.FaultedIsLeftOnlyByReset : Prop :=
  ∀ (W : Nat) (s : Record W), s.runState = .faulted →
    (∀ a, s.port.pending.head? = some a → a ≠ .reset ∧ PortIndexExists s a) →
    ∃ t : Record W, step s.state = .next t.state ∧ SameRecord s t

/-! ## The sequencer and the host's commands (40_step.md) -/

/-- R77, R88: when the word at `pc` of a RUNNING CORE decodes and the host leaves the CORE its step, that step is the
instruction's effect followed by the run loop's check. How the host leaves it is log entry 6. -/
def Obligations.StepRunsTheDecodedInstruction : Prop :=
  ∀ (W : Nat) (s : Record W) (rest : List (HostAccess W)) (i : Instr), s.runState = .running → CoreIsNext s rest →
    s.inProgram s.pc = true → decode s.nreg s.fetch = .ok i →
    ∃ t : Record W, exec i (dropPending rest s).state = .next t.state ∧
      step s.state = .next (finishRunStep t).state

/-- R79, R88, R91: after the instruction of a step has completed with state `t`, the run loop goes to HALTED if `pc` has
left the program, else to IDLE if a STOP is pending, else it stays RUNNING; it changes nothing else, and a STOP no longer
pends once STATE has left RUNNING. A run that goes on has one instruction boundary more for R27's reads to draw from; that
the model keeps them in a list, newest first, is log entry 7, and how the host leaves the CORE its step is log entry 6. -/
def Obligations.RunLoopEndsOrGoesOn : Prop :=
  ∀ (W : Nat) (s t : Record W) (rest : List (HostAccess W)) (i : Instr), s.runState = .running → CoreIsNext s rest →
    s.inProgram s.pc = true → decode s.nreg s.fetch = .ok i → exec i (dropPending rest s).state = .next t.state →
    t.runState ≠ .faulted →
    ∃ u : Record W, step s.state = .next u.state ∧ SameData t u ∧
      (t.inProgram t.pc = false → u.runState = .halted ∧ u.stopPending = false) ∧
      (t.inProgram t.pc = true → s.stopPending = true → u.runState = .idle ∧ u.stopPending = false) ∧
      (t.inProgram t.pc = true → s.stopPending = false →
        u.runState = .running ∧ u.stopPending = false ∧
        u.port.boundaries = u.snapshot :: s.port.boundaries)

/-- R79: the halt test, before the first step of a RUN (whose `pc` is 0), RESUME or STEP and after every completed step:
when `pc` is outside the program, nothing is fetched or executed and STATE goes to HALTED with `pc` kept. How the host
leaves the CORE its step is log entry 6. -/
def Obligations.HaltTestStopsWithoutFetching : Prop :=
  (∀ (W : Nat) (s : Record W) (v : Word W) (rest : List (HostAccess W)), s.runState = .idle ∨ s.runState = .halted →
    s.port.pending = .writeControl 6 v :: rest → commandCode v = 1 → s.plen = 0 →
    ∃ t : Record W, step s.state = .next t.state ∧ t.runState = .halted ∧ SameData (s.withPc 0) t) ∧
  (∀ (W : Nat) (s : Record W) (v : Word W) (rest : List (HostAccess W)), s.runState = .idle ∨ s.runState = .halted →
    s.port.pending = .writeControl 6 v :: rest → commandCode v = 2 ∨ commandCode v = 3 → s.inProgram s.pc = false →
    ∃ t : Record W, step s.state = .next t.state ∧ t.runState = .halted ∧ SameData s t) ∧
  (∀ (W : Nat) (s t : Record W) (rest : List (HostAccess W)) (i : Instr), s.runState = .running → CoreIsNext s rest →
    s.inProgram s.pc = true → decode s.nreg s.fetch = .ok i → exec i (dropPending rest s).state = .next t.state →
    t.runState ≠ .faulted → t.inProgram t.pc = false →
    ∃ u : Record W, step s.state = .next u.state ∧ u.runState = .halted ∧ SameData t u)

/-- Log entry 14, from R79: a RUNNING CORE whose `pc` is outside the program (a state that no run reaches, and that the
invariant excludes) halts without a fetch. This is the model's inference, not the rule's own words. -/
def Obligations.RunningOutsideTheProgramHalts : Prop :=
  ∀ (W : Nat) (s : Record W) (rest : List (HostAccess W)), s.runState = .running → CoreIsNext s rest →
    s.inProgram s.pc = false →
    ∃ t : Record W, step s.state = .next t.state ∧ t.runState = .halted ∧ t.stopPending = false ∧ SameData s t

/-- R88, R89, R132: RUN starts the CORE at index 0 and RESUME at the current `pc`, with the registers and the program the
host left, when the program has been written and the starting index is in it. The boundaries that R27's reads draw from
begin with this one; that the model keeps them in a list is log entry 7. -/
def Obligations.RunAndResumeStartRunning : Prop :=
  ∀ (W : Nat) (s : Record W) (v : Word W) (rest : List (HostAccess W)), s.runState = .idle ∨ s.runState = .halted →
    s.port.pending = .writeControl 6 v :: rest → s.programWritten = true →
    (commandCode v = 1 → 0 < s.plen →
      ∃ t : Record W, step s.state = .next t.state ∧ t.runState = .running ∧ SameData (s.withPc 0) t ∧
        t.stopPending = s.stopPending ∧ t.port.boundaries = [t.snapshot]) ∧
    (commandCode v = 2 → s.inProgram s.pc = true →
      ∃ t : Record W, step s.state = .next t.state ∧ t.runState = .running ∧ SameData s t ∧
        t.stopPending = s.stopPending ∧ t.port.boundaries = [t.snapshot])

/-- R90: STEP executes one instruction at the current `pc`, and then STATE is FAULTED if it raised, IDLE if `pc` is in the
program and HALTED if it is not. -/
def Obligations.StepCommandExecutesOneInstruction : Prop :=
  ∀ (W : Nat) (s : Record W) (v : Word W) (rest : List (HostAccess W)) (i : Instr),
    s.runState = .idle ∨ s.runState = .halted → s.port.pending = .writeControl 6 v :: rest → commandCode v = 3 →
    s.programWritten = true → s.inProgram s.pc = true → decode s.nreg s.fetch = .ok i →
    ∃ t u : Record W, exec i (dropPending rest s).state = .next t.state ∧ step s.state = .next u.state ∧
      SameData t u ∧
      (t.runState = .faulted → u.runState = .faulted) ∧
      (t.runState ≠ .faulted → t.inProgram t.pc = true → u.runState = .idle) ∧
      (t.runState ≠ .faulted → t.inProgram t.pc = false → u.runState = .halted)

/-- R87: a command code that names no command, and a command in a STATE that does not accept it, have no effect. -/
def Obligations.UnacceptedCommandsHaveNoEffect : Prop :=
  ∀ (W : Nat) (s : Record W) (v : Word W) (rest : List (HostAccess W)), s.port.pending = .writeControl 6 v :: rest →
    (commandCode v = 0 ∨ 5 ≤ commandCode v) ∨
    (1 ≤ commandCode v ∧ commandCode v ≤ 3 ∧ (s.runState = .running ∨ s.runState = .faulted)) ∨
    (commandCode v = 4 ∧ s.runState ≠ .running) →
    step s.state = .next (dropPending rest s).state

/-- R91: a STOP given to a RUNNING CORE lets it complete exactly one more instruction and then leaves RUNNING, the STOP no
longer pending. -/
def Obligations.StopEndsTheRunAfterOneStep : Prop :=
  ∀ (W : Nat) (s : Record W) (v : Word W) (rest : List (HostAccess W)) (i : Instr), s.runState = .running →
    s.port.pending = .writeControl 6 v :: rest → commandCode v = 4 → rest = [] ∨ rest.head? = some .tick →
    s.inProgram s.pc = true → decode s.nreg s.fetch = .ok i →
    ∃ t u z : Record W, step s.state = .next t.state ∧ t.runState = .running ∧ t.stopPending = true ∧ SameData s t ∧
      exec i (dropPending rest.tail t).state = .next z.state ∧
      step t.state = .next u.state ∧ u.runState ≠ .running ∧ u.stopPending = false ∧ SameData z u

/-- R113, R129, R132: a CORE that is not RUNNING changes nothing on its own: a step the host leaves it only uses up the
host's entry for it (log entries 6 and 9). -/
def Obligations.WaitingCoreChangesNothing : Prop :=
  ∀ (W : Nat) (s : Record W) (rest : List (HostAccess W)), s.runState ≠ .running → CoreIsNext s rest →
    step s.state = .next (dropPending rest s).state

/-! ## The host port and reset (10_state.md, 70_reset_and_hazards.md) -/

/-- R26, R27: host writes of `x`, `P`, `pc` and PLEN have no effect while RUNNING or FAULTED, and a write of a read-only
control register never has one. Control register numbers above 6 ignore writes by log entry 12. -/
def Obligations.RefusedHostWritesHaveNoEffect : Prop :=
  ∀ (W : Nat) (s : Record W) (rest : List (HostAccess W)),
    (s.runState = .running ∨ s.runState = .faulted →
      (∀ i v, i < s.nreg → s.port.pending = .writeX i v :: rest → step s.state = .next (dropPending rest s).state) ∧
      (∀ k w, k < s.pmax → s.port.pending = .writeP k w :: rest → step s.state = .next (dropPending rest s).state) ∧
      (∀ v, s.port.pending = .writeControl 1 v :: rest → step s.state = .next (dropPending rest s).state) ∧
      (∀ v, s.port.pending = .writeControl 2 v :: rest → step s.state = .next (dropPending rest s).state)) ∧
    (∀ no v, no = 0 ∨ no = 3 ∨ no = 4 ∨ no = 5 ∨ 6 < no → s.port.pending = .writeControl no v :: rest →
      step s.state = .next (dropPending rest s).state)

/-- R26, R27: in IDLE and HALTED a host write of `x[i]`, `P[k]`, `pc` or PLEN lands and changes nothing else; a write of PLEN
greater than PMAX is ignored. -/
def Obligations.HostWritesLand : Prop :=
  ∀ (W : Nat) (s : Record W) (rest : List (HostAccess W)), s.runState = .idle ∨ s.runState = .halted →
    (∀ i v, i < s.nreg → s.port.pending = .writeX i v :: rest →
      ∃ t : Record W, step s.state = .next t.state ∧ t.readX i = v ∧ (∀ j, j ≠ i → t.readX j = s.readX j) ∧
        SameProgram s t ∧ t.pc = s.pc ∧ SameControl (dropPending rest s) t) ∧
    (∀ k w, k < s.pmax → s.port.pending = .writeP k w :: rest →
      ∃ t : Record W, step s.state = .next t.state ∧ t.word k = w ∧ (∀ j, j ≠ k → t.word j = s.word j) ∧
        t.x = s.x ∧ t.pc = s.pc ∧ SameControl (dropPending rest s) t) ∧
    (∀ v, s.port.pending = .writeControl 1 v :: rest →
      ∃ t : Record W, step s.state = .next t.state ∧ t.pc = v ∧ t.x = s.x ∧ SameProgram s t ∧
        SameControl (dropPending rest s) t) ∧
    (∀ v, s.port.pending = .writeControl 2 v :: rest →
      ∃ t : Record W, step s.state = .next t.state ∧ t.plen = (if v.toNat ≤ s.pmax then v.toNat else s.plen) ∧
        t.x = s.x ∧ t.pc = s.pc ∧ SameProgram s t ∧ t.runState = s.runState ∧ t.cause = s.cause ∧
        t.finfo = s.finfo ∧ t.stopPending = s.stopPending ∧ t.pmax = s.pmax)

/-- R26, R23: STATUS bit by bit, of the W bits it has: STATE in bits [1:0] by its code, CAUSE in bits [7:4], every other bit
0. That a register of fewer than 8 bits has the low ones of these only is log entry 21. -/
def Obligations.StatusRegisterLayout : Prop :=
  (∀ (W : Nat) (s : Record W) (b : Nat), b < W →
    (b < 2 → (statusWord s).getLsbD b = (runStateCode s.runState).getLsbD b) ∧
    (4 ≤ b → b < 8 → (statusWord s).getLsbD b = s.cause.getLsbD (b - 4)) ∧
    (b = 2 ∨ b = 3 ∨ 8 ≤ b → (statusWord s).getLsbD b = false)) ∧
  runStateCode .idle = 0 ∧ runStateCode .running = 1 ∧ runStateCode .halted = 2 ∧ runStateCode .faulted = 3

/-- R26, R27: while the CORE is not RUNNING, a host read answers the current value and changes no state the spec names. -/
def Obligations.HostReadsAnswerCurrentValues : Prop :=
  ∀ (W : Nat) (s : Record W) (rest : List (HostAccess W)), s.runState ≠ .running →
    (∀ no, s.port.pending = .readControl no :: rest →
      ∃ (t : Record W) (r : Word W), step s.state = .next t.state ∧ t.port.replies = .word r :: s.port.replies ∧
        SameRecord s t ∧
        (no = 0 → r = statusWord s) ∧ (no = 1 → r = s.pc) ∧ (no = 2 → s.plen < 2 ^ W → r.toNat = s.plen) ∧
        (no = 3 → r = s.finfo) ∧ (no = 4 → s.nreg < 2 ^ W → r.toNat = s.nreg) ∧
        (no = 5 → s.pmax < 2 ^ W → r.toNat = s.pmax) ∧ (no = 6 → r = 0)) ∧
    (∀ i, i < s.nreg → s.port.pending = .readX i :: rest →
      ∃ t : Record W, step s.state = .next t.state ∧ t.port.replies = .word (s.readX i) :: s.port.replies ∧
        SameRecord s t) ∧
    (∀ k, k < s.pmax → s.port.pending = .readP k :: rest →
      ∃ t : Record W, step s.state = .next t.state ∧ t.port.replies = .instruction (s.word k) :: s.port.replies ∧
        SameRecord s t)

/-- R26, R27: while RUNNING, a host read of `x[i]`, `P[k]` or `pc` answers the value held at some instruction boundary of the
run (whichever the free value draws), and a read of every other control register its current value, COMMAND's being 0; no
state the spec names changes, so the run goes on and a pending STOP stays pending. -/
def Obligations.HostReadsWhileRunningDrawABoundary : Prop :=
  ∀ (W : Nat) (s : Record W) (rest : List (HostAccess W)), s.runState = .running → s.port.boundaries ≠ [] →
    (∀ i, i < s.nreg → s.port.pending = .readX i :: rest →
      ∃ t : Record W, ∃ b ∈ s.port.boundaries, step s.state = .next t.state ∧
        t.port.replies = .word (b.x.getD i 0) :: s.port.replies ∧ SameRecord s t) ∧
    (∀ k, k < s.pmax → s.port.pending = .readP k :: rest →
      ∃ t : Record W, ∃ b ∈ s.port.boundaries, step s.state = .next t.state ∧
        t.port.replies = .instruction (b.prog.word s.port.epoch k) :: s.port.replies ∧ SameRecord s t) ∧
    (∀ no, s.port.pending = .readControl no :: rest →
      ∃ (t : Record W) (r : Word W), step s.state = .next t.state ∧ t.port.replies = .word r :: s.port.replies ∧
        SameRecord s t ∧
        (no = 0 → r = statusWord s) ∧ (no = 1 → ∃ b ∈ s.port.boundaries, r = b.pc) ∧
        (no = 2 → s.plen < 2 ^ W → r.toNat = s.plen) ∧ (no = 3 → r = s.finfo) ∧
        (no = 4 → s.nreg < 2 ^ W → r.toNat = s.nreg) ∧ (no = 5 → s.pmax < 2 ^ W → r.toNat = s.pmax) ∧
        (no = 6 → r = 0))

/-- R131: reset, from every state and a fault included, sets every field to its reset value and leaves no program word
written. -/
def Obligations.ResetSetsEveryField : Prop :=
  ∀ (W : Nat) (s : Record W) (rest : List (HostAccess W)), s.port.pending = .reset :: rest →
    ∃ t : Record W, step s.state = .next t.state ∧ t.x.length = s.x.length ∧ (∀ v ∈ t.x, v = 0) ∧ t.pc = 0 ∧
      t.plen = 0 ∧ t.runState = .idle ∧ t.cause = 0 ∧ t.finfo = 0 ∧ t.stopPending = false ∧ t.pmax = s.pmax ∧
      (∀ k, t.prog.find? k = none)

/-- R134: a RUN of a program with a word that was not written since reset is refused. That a RESUME or a STEP at an index
of such a program is a launch too is log entry 5. -/
def Obligations.LaunchOfUnwrittenProgramIsRefused : Prop :=
  ∀ (W : Nat) (s : Record W) (v : Word W) (rest : List (HostAccess W)) (k : Nat),
    s.runState = .idle ∨ s.runState = .halted →
    s.port.pending = .writeControl 6 v :: rest → k < s.plen → s.prog.find? k = none →
    commandCode v = 1 ∨ ((commandCode v = 2 ∨ commandCode v = 3) ∧ s.inProgram s.pc = true) →
    step s.state = .refused .unwrittenProgram

/-! ## Invariants -/

/-- R8, R31: for every W, NREG and PMAX that R8 allows, the machine right after reset satisfies the invariant and holds no
fault. The model's own fields in it are log entry 15; that `State.reset` is the machine at the reference values is log
entries 1 and 2. -/
def Obligations.ResetSatisfiesTheInvariant : Prop :=
  (∀ W nreg pmax : Nat, Config.legal W nreg pmax = true →
    Inv (Record.resetAt W nreg pmax) ∧ FaultEvidence (Record.resetAt W nreg pmax) ∧
    (Record.resetAt W nreg pmax).nreg = nreg ∧ (Record.resetAt W nreg pmax).pmax = pmax) ∧
  State.reset = State.resetAt 32 4 (2 ^ 16)

/-- R8, R18, R26: no step of the machine, whatever the host does in it, changes the parameters it was built with: W, NREG
and PMAX. -/
def Obligations.NoStepChangesTheParameters : Prop :=
  ∀ s t : State, step s = .next t → t.W = s.W ∧ t.record.nreg = s.record.nreg ∧ t.record.pmax = s.record.pmax

/-- Every step of the machine, a host access or a step of the CORE, keeps the invariant: R8, R21, R24, R25, R27, R30, R41,
R79, R114, R134. -/
def Obligations.EveryStepKeepsTheInvariant : Prop :=
  ∀ s t : State, Inv s.record → step s = .next t → Inv t.record

/-- R118, R121: every step keeps the evidence of a fault: in a FAULTED state `pc` is the index of the faulting instruction,
and CAUSE and FINFO are those of the fault it raises. -/
def Obligations.EveryStepKeepsTheFaultEvidence : Prop :=
  ∀ s t : State, FaultEvidence s.record → step s = .next t → FaultEvidence t.record

/-! ## The CORE and the source's machine -/

/-- R3, R76 to R80, R93 to R112: on a program of well-formed words, one step of the RUNNING CORE is one `step` of the
source's machine over variants; it raises no fault, and it halts exactly when the source's `pc` leaves the program. How the
host leaves the CORE its step is log entry 6. -/
def Obligations.StepRefinesTheSourceMachine : Prop :=
  ∀ (W : Nat) (m : Source.Machine W) (s : Record W) (rest : List (HostAccess W)), Inv s → s.runState = .running →
    CoreIsNext s rest → Source.Represents m s →
    ∃ t : Record W, step s.state = .next t.state ∧ Source.Represents (Source.step m) t ∧ t.runState ≠ .faulted ∧
      (t.runState = .halted ↔ t.inProgram (Source.step m).pc = false)

/-- R88, R92: a run left alone by the host computes the source's run: after any number of steps the CORE holds the source's
machine after as many steps (which stands still once its `pc` has left the program), and it is HALTED exactly when that
`pc` is outside the program, RUNNING otherwise. -/
def Obligations.RunComputesTheSourceRun : Prop :=
  ∀ (W : Nat) (m : Source.Machine W) (s : Record W), Inv s → s.runState = .running → s.port.pending = [] →
    s.stopPending = false → Source.Represents m s →
    ∀ n, ∃ t : Record W, Host.Core.run core n s.state = .next t.state ∧ Source.Represents (Source.steps n m) t ∧
      (t.inProgram (Source.steps n m).pc = true → t.runState = .running) ∧
      (t.inProgram (Source.steps n m).pc = false → t.runState = .halted)

/-- R44, R134: the words at and beyond PLEN never affect a run: two machines that agree on all but those words, left alone
by the host, agree so after any number of steps. -/
def Obligations.WordsBeyondTheProgramNeverAffectARun : Prop :=
  ∀ (W : Nat) (s s' : Record W), s.port.pending = [] → AgreeOnTheRun s s' →
    ∀ n, ∃ t t' : Record W, Host.Core.run core n s.state = .next t.state ∧
      Host.Core.run core n s'.state = .next t'.state ∧ AgreeOnTheRun t t'
end

