-- ==== Sys2Proof/Laws/State.lean ====
section
/-!
SUPPORT. Laws/Record.lean: one lemma per field per update of State, each true by definition, so that no proof unfolds a
record update.
-/

namespace Sys2Proof.Machine.Record

variable {W : Nat} (s : Record W)

@[simp] theorem withX_x (x : List (Word W)) : (s.withX x).x = x := rfl
@[simp] theorem withX_pc (x : List (Word W)) : (s.withX x).pc = s.pc := rfl
@[simp] theorem withX_plen (x : List (Word W)) : (s.withX x).plen = s.plen := rfl
@[simp] theorem withX_prog (x : List (Word W)) : (s.withX x).prog = s.prog := rfl
@[simp] theorem withX_runState (x : List (Word W)) : (s.withX x).runState = s.runState := rfl
@[simp] theorem withX_cause (x : List (Word W)) : (s.withX x).cause = s.cause := rfl
@[simp] theorem withX_finfo (x : List (Word W)) : (s.withX x).finfo = s.finfo := rfl
@[simp] theorem withX_stopPending (x : List (Word W)) : (s.withX x).stopPending = s.stopPending := rfl
@[simp] theorem withX_pmax (x : List (Word W)) : (s.withX x).pmax = s.pmax := rfl
@[simp] theorem withX_port (x : List (Word W)) : (s.withX x).port = s.port := rfl

@[simp] theorem withPc_x (t : Word W) : (s.withPc t).x = s.x := rfl
@[simp] theorem withPc_pc (t : Word W) : (s.withPc t).pc = t := rfl
@[simp] theorem withPc_plen (t : Word W) : (s.withPc t).plen = s.plen := rfl
@[simp] theorem withPc_prog (t : Word W) : (s.withPc t).prog = s.prog := rfl
@[simp] theorem withPc_runState (t : Word W) : (s.withPc t).runState = s.runState := rfl
@[simp] theorem withPc_cause (t : Word W) : (s.withPc t).cause = s.cause := rfl
@[simp] theorem withPc_finfo (t : Word W) : (s.withPc t).finfo = s.finfo := rfl
@[simp] theorem withPc_stopPending (t : Word W) : (s.withPc t).stopPending = s.stopPending := rfl
@[simp] theorem withPc_pmax (t : Word W) : (s.withPc t).pmax = s.pmax := rfl
@[simp] theorem withPc_port (t : Word W) : (s.withPc t).port = s.port := rfl

@[simp] theorem withPlen_x (n : Nat) : (s.withPlen n).x = s.x := rfl
@[simp] theorem withPlen_pc (n : Nat) : (s.withPlen n).pc = s.pc := rfl
@[simp] theorem withPlen_plen (n : Nat) : (s.withPlen n).plen = n := rfl
@[simp] theorem withPlen_prog (n : Nat) : (s.withPlen n).prog = s.prog := rfl
@[simp] theorem withPlen_runState (n : Nat) : (s.withPlen n).runState = s.runState := rfl
@[simp] theorem withPlen_cause (n : Nat) : (s.withPlen n).cause = s.cause := rfl
@[simp] theorem withPlen_finfo (n : Nat) : (s.withPlen n).finfo = s.finfo := rfl
@[simp] theorem withPlen_stopPending (n : Nat) : (s.withPlen n).stopPending = s.stopPending := rfl
@[simp] theorem withPlen_pmax (n : Nat) : (s.withPlen n).pmax = s.pmax := rfl
@[simp] theorem withPlen_port (n : Nat) : (s.withPlen n).port = s.port := rfl

@[simp] theorem withProg_x (m : Memory W) : (s.withProg m).x = s.x := rfl
@[simp] theorem withProg_pc (m : Memory W) : (s.withProg m).pc = s.pc := rfl
@[simp] theorem withProg_plen (m : Memory W) : (s.withProg m).plen = s.plen := rfl
@[simp] theorem withProg_prog (m : Memory W) : (s.withProg m).prog = m := rfl
@[simp] theorem withProg_runState (m : Memory W) : (s.withProg m).runState = s.runState := rfl
@[simp] theorem withProg_cause (m : Memory W) : (s.withProg m).cause = s.cause := rfl
@[simp] theorem withProg_finfo (m : Memory W) : (s.withProg m).finfo = s.finfo := rfl
@[simp] theorem withProg_stopPending (m : Memory W) : (s.withProg m).stopPending = s.stopPending := rfl
@[simp] theorem withProg_pmax (m : Memory W) : (s.withProg m).pmax = s.pmax := rfl
@[simp] theorem withProg_port (m : Memory W) : (s.withProg m).port = s.port := rfl

@[simp] theorem withRunState_x (r : RunState) : (s.withRunState r).x = s.x := rfl
@[simp] theorem withRunState_pc (r : RunState) : (s.withRunState r).pc = s.pc := rfl
@[simp] theorem withRunState_plen (r : RunState) : (s.withRunState r).plen = s.plen := rfl
@[simp] theorem withRunState_prog (r : RunState) : (s.withRunState r).prog = s.prog := rfl
@[simp] theorem withRunState_runState (r : RunState) : (s.withRunState r).runState = r := rfl
@[simp] theorem withRunState_cause (r : RunState) : (s.withRunState r).cause = s.cause := rfl
@[simp] theorem withRunState_finfo (r : RunState) : (s.withRunState r).finfo = s.finfo := rfl
@[simp] theorem withRunState_stopPending (r : RunState) : (s.withRunState r).stopPending = s.stopPending := rfl
@[simp] theorem withRunState_pmax (r : RunState) : (s.withRunState r).pmax = s.pmax := rfl
@[simp] theorem withRunState_port (r : RunState) : (s.withRunState r).port = s.port := rfl

@[simp] theorem withStop_x (b : Bool) : (s.withStop b).x = s.x := rfl
@[simp] theorem withStop_pc (b : Bool) : (s.withStop b).pc = s.pc := rfl
@[simp] theorem withStop_plen (b : Bool) : (s.withStop b).plen = s.plen := rfl
@[simp] theorem withStop_prog (b : Bool) : (s.withStop b).prog = s.prog := rfl
@[simp] theorem withStop_runState (b : Bool) : (s.withStop b).runState = s.runState := rfl
@[simp] theorem withStop_cause (b : Bool) : (s.withStop b).cause = s.cause := rfl
@[simp] theorem withStop_finfo (b : Bool) : (s.withStop b).finfo = s.finfo := rfl
@[simp] theorem withStop_stopPending (b : Bool) : (s.withStop b).stopPending = b := rfl
@[simp] theorem withStop_pmax (b : Bool) : (s.withStop b).pmax = s.pmax := rfl
@[simp] theorem withStop_port (b : Bool) : (s.withStop b).port = s.port := rfl

@[simp] theorem withFault_x (c : BitVec 4) (i : Word W) : (s.withFault c i).x = s.x := rfl
@[simp] theorem withFault_pc (c : BitVec 4) (i : Word W) : (s.withFault c i).pc = s.pc := rfl
@[simp] theorem withFault_plen (c : BitVec 4) (i : Word W) : (s.withFault c i).plen = s.plen := rfl
@[simp] theorem withFault_prog (c : BitVec 4) (i : Word W) : (s.withFault c i).prog = s.prog := rfl
@[simp] theorem withFault_runState (c : BitVec 4) (i : Word W) : (s.withFault c i).runState = s.runState := rfl
@[simp] theorem withFault_cause (c : BitVec 4) (i : Word W) : (s.withFault c i).cause = c := rfl
@[simp] theorem withFault_finfo (c : BitVec 4) (i : Word W) : (s.withFault c i).finfo = i := rfl
@[simp] theorem withFault_stopPending (c : BitVec 4) (i : Word W) : (s.withFault c i).stopPending = s.stopPending := rfl
@[simp] theorem withFault_pmax (c : BitVec 4) (i : Word W) : (s.withFault c i).pmax = s.pmax := rfl
@[simp] theorem withFault_port (c : BitVec 4) (i : Word W) : (s.withFault c i).port = s.port := rfl

@[simp] theorem withPort_x (p : HostPort W) : (s.withPort p).x = s.x := rfl
@[simp] theorem withPort_pc (p : HostPort W) : (s.withPort p).pc = s.pc := rfl
@[simp] theorem withPort_plen (p : HostPort W) : (s.withPort p).plen = s.plen := rfl
@[simp] theorem withPort_prog (p : HostPort W) : (s.withPort p).prog = s.prog := rfl
@[simp] theorem withPort_runState (p : HostPort W) : (s.withPort p).runState = s.runState := rfl
@[simp] theorem withPort_cause (p : HostPort W) : (s.withPort p).cause = s.cause := rfl
@[simp] theorem withPort_finfo (p : HostPort W) : (s.withPort p).finfo = s.finfo := rfl
@[simp] theorem withPort_stopPending (p : HostPort W) : (s.withPort p).stopPending = s.stopPending := rfl
@[simp] theorem withPort_pmax (p : HostPort W) : (s.withPort p).pmax = s.pmax := rfl
@[simp] theorem withPort_port (p : HostPort W) : (s.withPort p).port = p := rfl

@[simp] theorem advance_x : s.advance.x = s.x := rfl
@[simp] theorem advance_pc : s.advance.pc = s.pc + 1 := rfl
@[simp] theorem advance_plen : s.advance.plen = s.plen := rfl
@[simp] theorem advance_prog : s.advance.prog = s.prog := rfl
@[simp] theorem advance_runState : s.advance.runState = s.runState := rfl
@[simp] theorem advance_cause : s.advance.cause = s.cause := rfl
@[simp] theorem advance_finfo : s.advance.finfo = s.finfo := rfl
@[simp] theorem advance_stopPending : s.advance.stopPending = s.stopPending := rfl
@[simp] theorem advance_pmax : s.advance.pmax = s.pmax := rfl
@[simp] theorem advance_port : s.advance.port = s.port := rfl

@[simp] theorem endRun_x (r : RunState) : (s.endRun r).x = s.x := rfl
@[simp] theorem endRun_pc (r : RunState) : (s.endRun r).pc = s.pc := rfl
@[simp] theorem endRun_plen (r : RunState) : (s.endRun r).plen = s.plen := rfl
@[simp] theorem endRun_prog (r : RunState) : (s.endRun r).prog = s.prog := rfl
@[simp] theorem endRun_runState (r : RunState) : (s.endRun r).runState = r := rfl
@[simp] theorem endRun_cause (r : RunState) : (s.endRun r).cause = s.cause := rfl
@[simp] theorem endRun_finfo (r : RunState) : (s.endRun r).finfo = s.finfo := rfl
@[simp] theorem endRun_stopPending (r : RunState) : (s.endRun r).stopPending = false := rfl
@[simp] theorem endRun_pmax (r : RunState) : (s.endRun r).pmax = s.pmax := rfl
@[simp] theorem endRun_port (r : RunState) : (s.endRun r).port = { s.port with boundaries := [] } := rfl

@[simp] theorem beginRun_x : s.beginRun.x = s.x := rfl
@[simp] theorem beginRun_pc : s.beginRun.pc = s.pc := rfl
@[simp] theorem beginRun_plen : s.beginRun.plen = s.plen := rfl
@[simp] theorem beginRun_prog : s.beginRun.prog = s.prog := rfl
@[simp] theorem beginRun_runState : s.beginRun.runState = .running := rfl
@[simp] theorem beginRun_cause : s.beginRun.cause = s.cause := rfl
@[simp] theorem beginRun_finfo : s.beginRun.finfo = s.finfo := rfl
@[simp] theorem beginRun_stopPending : s.beginRun.stopPending = s.stopPending := rfl
@[simp] theorem beginRun_pmax : s.beginRun.pmax = s.pmax := rfl
@[simp] theorem beginRun_port : s.beginRun.port = { s.port with boundaries := [s.snapshot] } := rfl

@[simp] theorem markBoundary_x : s.markBoundary.x = s.x := rfl
@[simp] theorem markBoundary_pc : s.markBoundary.pc = s.pc := rfl
@[simp] theorem markBoundary_plen : s.markBoundary.plen = s.plen := rfl
@[simp] theorem markBoundary_prog : s.markBoundary.prog = s.prog := rfl
@[simp] theorem markBoundary_runState : s.markBoundary.runState = s.runState := rfl
@[simp] theorem markBoundary_cause : s.markBoundary.cause = s.cause := rfl
@[simp] theorem markBoundary_finfo : s.markBoundary.finfo = s.finfo := rfl
@[simp] theorem markBoundary_stopPending : s.markBoundary.stopPending = s.stopPending := rfl
@[simp] theorem markBoundary_pmax : s.markBoundary.pmax = s.pmax := rfl
@[simp] theorem markBoundary_port : s.markBoundary.port = { s.port with boundaries := s.snapshot :: s.port.boundaries } := rfl

@[simp] theorem writeX_x (i : Nat) (v : Word W) : (s.writeX i v).x = s.x.set i v := rfl
@[simp] theorem writeX_pc (i : Nat) (v : Word W) : (s.writeX i v).pc = s.pc := rfl
@[simp] theorem writeX_plen (i : Nat) (v : Word W) : (s.writeX i v).plen = s.plen := rfl
@[simp] theorem writeX_prog (i : Nat) (v : Word W) : (s.writeX i v).prog = s.prog := rfl
@[simp] theorem writeX_runState (i : Nat) (v : Word W) : (s.writeX i v).runState = s.runState := rfl
@[simp] theorem writeX_cause (i : Nat) (v : Word W) : (s.writeX i v).cause = s.cause := rfl
@[simp] theorem writeX_finfo (i : Nat) (v : Word W) : (s.writeX i v).finfo = s.finfo := rfl
@[simp] theorem writeX_stopPending (i : Nat) (v : Word W) : (s.writeX i v).stopPending = s.stopPending := rfl
@[simp] theorem writeX_pmax (i : Nat) (v : Word W) : (s.writeX i v).pmax = s.pmax := rfl
@[simp] theorem writeX_port (i : Nat) (v : Word W) : (s.writeX i v).port = s.port := rfl

@[simp] theorem toggleKind_x (k : Nat) (c : BitVec 3) : (s.toggleKind k c).x = s.x := rfl
@[simp] theorem toggleKind_pc (k : Nat) (c : BitVec 3) : (s.toggleKind k c).pc = s.pc := rfl
@[simp] theorem toggleKind_plen (k : Nat) (c : BitVec 3) : (s.toggleKind k c).plen = s.plen := rfl
@[simp] theorem toggleKind_prog (k : Nat) (c : BitVec 3) : (s.toggleKind k c).prog = s.prog.write k (setKindField (s.word k) c) := rfl
@[simp] theorem toggleKind_runState (k : Nat) (c : BitVec 3) : (s.toggleKind k c).runState = s.runState := rfl
@[simp] theorem toggleKind_cause (k : Nat) (c : BitVec 3) : (s.toggleKind k c).cause = s.cause := rfl
@[simp] theorem toggleKind_finfo (k : Nat) (c : BitVec 3) : (s.toggleKind k c).finfo = s.finfo := rfl
@[simp] theorem toggleKind_stopPending (k : Nat) (c : BitVec 3) : (s.toggleKind k c).stopPending = s.stopPending := rfl
@[simp] theorem toggleKind_pmax (k : Nat) (c : BitVec 3) : (s.toggleKind k c).pmax = s.pmax := rfl
@[simp] theorem toggleKind_port (k : Nat) (c : BitVec 3) : (s.toggleKind k c).port = s.port := rfl

end Sys2Proof.Machine.Record

namespace Sys2Proof.Machine

variable {W : Nat} (s : Record W)

@[simp] theorem raise_x (f : CoreFault W) : (raise f s).x = s.x := rfl
@[simp] theorem raise_pc (f : CoreFault W) : (raise f s).pc = s.pc := rfl
@[simp] theorem raise_plen (f : CoreFault W) : (raise f s).plen = s.plen := rfl
@[simp] theorem raise_prog (f : CoreFault W) : (raise f s).prog = s.prog := rfl
@[simp] theorem raise_runState (f : CoreFault W) : (raise f s).runState = .faulted := rfl
@[simp] theorem raise_cause (f : CoreFault W) : (raise f s).cause = causeCode f := rfl
@[simp] theorem raise_finfo (f : CoreFault W) : (raise f s).finfo = faultInfo f := rfl
@[simp] theorem raise_stopPending (f : CoreFault W) : (raise f s).stopPending = false := rfl
@[simp] theorem raise_pmax (f : CoreFault W) : (raise f s).pmax = s.pmax := rfl
@[simp] theorem raise_port (f : CoreFault W) : (raise f s).port = { s.port with boundaries := [] } := rfl

@[simp] theorem resetCore_x : (resetCore s).x = List.replicate s.nreg 0 := rfl
@[simp] theorem resetCore_pc : (resetCore s).pc = 0 := rfl
@[simp] theorem resetCore_plen : (resetCore s).plen = 0 := rfl
@[simp] theorem resetCore_prog : (resetCore s).prog = [] := rfl
@[simp] theorem resetCore_runState : (resetCore s).runState = .idle := rfl
@[simp] theorem resetCore_cause : (resetCore s).cause = 0 := rfl
@[simp] theorem resetCore_finfo : (resetCore s).finfo = 0 := rfl
@[simp] theorem resetCore_stopPending : (resetCore s).stopPending = false := rfl
@[simp] theorem resetCore_pmax : (resetCore s).pmax = s.pmax := rfl
@[simp] theorem resetCore_port : (resetCore s).port = { s.port with boundaries := [], epoch := s.port.epoch + 1 } := rfl

@[simp] theorem dropPending_x (r : List (HostAccess W)) : (dropPending r s).x = s.x := rfl
@[simp] theorem dropPending_pc (r : List (HostAccess W)) : (dropPending r s).pc = s.pc := rfl
@[simp] theorem dropPending_plen (r : List (HostAccess W)) : (dropPending r s).plen = s.plen := rfl
@[simp] theorem dropPending_prog (r : List (HostAccess W)) : (dropPending r s).prog = s.prog := rfl
@[simp] theorem dropPending_runState (r : List (HostAccess W)) : (dropPending r s).runState = s.runState := rfl
@[simp] theorem dropPending_cause (r : List (HostAccess W)) : (dropPending r s).cause = s.cause := rfl
@[simp] theorem dropPending_finfo (r : List (HostAccess W)) : (dropPending r s).finfo = s.finfo := rfl
@[simp] theorem dropPending_stopPending (r : List (HostAccess W)) : (dropPending r s).stopPending = s.stopPending := rfl
@[simp] theorem dropPending_pmax (r : List (HostAccess W)) : (dropPending r s).pmax = s.pmax := rfl
@[simp] theorem dropPending_port (r : List (HostAccess W)) : (dropPending r s).port = { s.port with pending := r } := rfl

@[simp] theorem answer_x (r : HostReply W) : (answer r s).x = s.x := rfl
@[simp] theorem answer_pc (r : HostReply W) : (answer r s).pc = s.pc := rfl
@[simp] theorem answer_plen (r : HostReply W) : (answer r s).plen = s.plen := rfl
@[simp] theorem answer_prog (r : HostReply W) : (answer r s).prog = s.prog := rfl
@[simp] theorem answer_runState (r : HostReply W) : (answer r s).runState = s.runState := rfl
@[simp] theorem answer_cause (r : HostReply W) : (answer r s).cause = s.cause := rfl
@[simp] theorem answer_finfo (r : HostReply W) : (answer r s).finfo = s.finfo := rfl
@[simp] theorem answer_stopPending (r : HostReply W) : (answer r s).stopPending = s.stopPending := rfl
@[simp] theorem answer_pmax (r : HostReply W) : (answer r s).pmax = s.pmax := rfl
@[simp] theorem answer_port (r : HostReply W) : (answer r s).port = { s.port with replies := r :: s.port.replies, draws := s.port.draws + 1 } := rfl

/-! The values derived from the fields that nothing but their own fields changes. -/

theorem nreg_eq : s.nreg = s.x.length := rfl

theorem inProgram_congr {s t : Record W} (h : t.plen = s.plen) (v : Word W) : t.inProgram v = s.inProgram v := by
  simp [Record.inProgram, h]

theorem word_congr {s t : Record W} (hp : t.prog = s.prog) (he : t.port.epoch = s.port.epoch) (k : Nat) :
    t.word k = s.word k := by
  simp [Record.word, hp, he]

theorem fetch_congr {s t : Record W} (hc : t.pc = s.pc) (hp : t.prog = s.prog) (he : t.port.epoch = s.port.epoch) :
    t.fetch = s.fetch := by
  simp [Record.fetch, hc, word_congr hp he]

@[simp] theorem advance_word (k : Nat) : s.advance.word k = s.word k := rfl
@[simp] theorem withPc_word (t : Word W) (k : Nat) : (s.withPc t).word k = s.word k := rfl
@[simp] theorem writeX_word (i : Nat) (v : Word W) (k : Nat) : (s.writeX i v).word k = s.word k := rfl
@[simp] theorem endRun_word (r : RunState) (k : Nat) : (s.endRun r).word k = s.word k := rfl
@[simp] theorem markBoundary_word (k : Nat) : s.markBoundary.word k = s.word k := rfl
@[simp] theorem beginRun_word (k : Nat) : s.beginRun.word k = s.word k := rfl
@[simp] theorem dropPending_word (r : List (HostAccess W)) (k : Nat) : (dropPending r s).word k = s.word k := rfl
@[simp] theorem raise_word (f : CoreFault W) (k : Nat) : (raise f s).word k = s.word k := rfl
@[simp] theorem answer_word (r : HostReply W) (k : Nat) : (answer r s).word k = s.word k := rfl

@[simp] theorem advance_nreg : s.advance.nreg = s.nreg := rfl
@[simp] theorem withPc_nreg (t : Word W) : (s.withPc t).nreg = s.nreg := rfl
@[simp] theorem endRun_nreg (r : RunState) : (s.endRun r).nreg = s.nreg := rfl
@[simp] theorem markBoundary_nreg : s.markBoundary.nreg = s.nreg := rfl
@[simp] theorem beginRun_nreg : s.beginRun.nreg = s.nreg := rfl
@[simp] theorem toggleKind_nreg (k : Nat) (c : BitVec 3) : (s.toggleKind k c).nreg = s.nreg := rfl
@[simp] theorem dropPending_nreg (r : List (HostAccess W)) : (dropPending r s).nreg = s.nreg := rfl
@[simp] theorem raise_nreg (f : CoreFault W) : (raise f s).nreg = s.nreg := rfl
@[simp] theorem answer_nreg (r : HostReply W) : (answer r s).nreg = s.nreg := rfl
@[simp] theorem writeX_nreg (i : Nat) (v : Word W) : (s.writeX i v).nreg = s.nreg := by simp [Record.nreg]
@[simp] theorem resetCore_nreg : (resetCore s).nreg = s.nreg := by simp [Record.nreg]

end Sys2Proof.Machine
end

