-- ==== Sys2Proof/Laws/Memory.lean ====
section
/-!
SUPPORT. Laws/Memory.lean: read after write, and that every memory operation keeps the canonical form.
-/

namespace Sys2Proof.Machine.Memory

variable {W : Nat}

@[simp] theorem find?_nil (k : Nat) : find? (W := W) k [] = none := rfl

theorem find?_cons (k j : Nat) (v : RawWord W) (m : Memory W) :
    find? k ((j, v) :: m) = if j = k then some v else find? k m := rfl

@[simp] theorem wf_nil : wf (W := W) [] := List.Pairwise.nil

theorem wf_cons {p : Nat × RawWord W} {m : Memory W} : wf (p :: m) ↔ (∀ q ∈ m, p.1 < q.1) ∧ wf m :=
  List.pairwise_cons

@[simp] theorem find?_write_same (k : Nat) (w : RawWord W) (m : Memory W) : (m.write k w).find? k = some w := by
  induction m with
  | nil => simp [write, find?]
  | cons p m ih =>
    obtain ⟨j, v⟩ := p
    unfold write
    split
    · simp [find?]
    · split
      · simp [find?]
      · rename_i h
        simp [find?, Ne.symm h, ih]

theorem find?_write_other {j k : Nat} (h : j ≠ k) (w : RawWord W) (m : Memory W) :
    (m.write k w).find? j = m.find? j := by
  induction m with
  | nil => simp [write, find?, h.symm]
  | cons p m ih =>
    obtain ⟨i, v⟩ := p
    unfold write
    split
    · simp [find?, h.symm]
    · split
      · subst_vars; simp [find?, h.symm]
      · simp [find?, ih]

theorem mem_write {p : Nat × RawWord W} {k : Nat} {w : RawWord W} {m : Memory W} (h : p ∈ m.write k w) :
    p = (k, w) ∨ p ∈ m := by
  induction m with
  | nil => exact .inl (by simpa [write] using h)
  | cons q m ih =>
    obtain ⟨j, v⟩ := q
    unfold write at h
    split at h
    · simpa using h
    · split at h
      · rcases List.mem_cons.1 h with h | h
        · exact .inl h
        · exact .inr (List.mem_cons_of_mem _ h)
      · rcases List.mem_cons.1 h with h | h
        · exact .inr (h ▸ List.mem_cons_self)
        · exact (ih h).imp id (List.mem_cons_of_mem _)

/-- R44: a write keeps the canonical form. -/
theorem write_wf {k : Nat} {w : RawWord W} {m : Memory W} (h : m.wf) : (m.write k w).wf := by
  induction m with
  | nil => simp [write, wf]
  | cons p m ih =>
    obtain ⟨j, v⟩ := p
    obtain ⟨hj, hm⟩ := wf_cons.1 h
    unfold write
    split
    · rename_i hk
      refine wf_cons.2 ⟨fun q hq => ?_, h⟩
      rcases List.mem_cons.1 hq with rfl | hq
      · exact hk
      · exact Nat.lt_trans hk (hj q hq)
    · split
      · subst_vars; exact wf_cons.2 ⟨hj, hm⟩
      · rename_i h1 h2
        refine wf_cons.2 ⟨fun q hq => ?_, ih hm⟩
        rcases mem_write hq with rfl | hq
        · show j < k; omega
        · exact hj q hq

theorem write_bound {k n : Nat} {w : RawWord W} {m : Memory W} (hk : k < n) (h : ∀ p ∈ m, p.1 < n) :
    ∀ p ∈ m.write k w, p.1 < n := by
  intro p hp
  rcases mem_write hp with rfl | hp
  · exact hk
  · exact h p hp

/-- A write of an index that is listed already keeps the list of indices. -/
theorem write_indices {k : Nat} {w : RawWord W} {m : Memory W} (h : m.wf) (hk : (m.find? k).isSome) :
    (m.write k w).map Prod.fst = m.map Prod.fst := by
  induction m with
  | nil => simp at hk
  | cons p m ih =>
    obtain ⟨j, v⟩ := p
    obtain ⟨hj, hm⟩ := wf_cons.1 h
    unfold write
    split
    · rename_i hlt
      exfalso
      have : ∀ (m : Memory W), (∀ q ∈ m, k < q.1) → m.find? k = none := by
        intro m
        induction m with
        | nil => simp
        | cons q m ih2 =>
          intro hq
          have h1 := hq q List.mem_cons_self
          rw [find?_cons, if_neg (by omega)]
          exact ih2 fun r hr => hq r (List.mem_cons_of_mem _ hr)
      rw [this _ ?_] at hk
      · simp at hk
      · intro q hq
        rcases List.mem_cons.1 hq with rfl | hq
        · exact hlt
        · exact Nat.lt_trans hlt (hj q hq)
    · split
      · subst_vars; rfl
      · rename_i h2
        rw [find?_cons, if_neg (Ne.symm h2)] at hk
        simp [ih hm hk]

/-- What a fetch of index `j` sees after a write of index `k`. -/
theorem word_write (e j k : Nat) (w : RawWord W) (m : Memory W) :
    (m.write k w).word e j = if j = k then w else m.word e j := by
  unfold word
  split
  · rename_i h
    split
    · rename_i hj; subst hj; simpa using h.symm
    · rename_i hj; rw [find?_write_other hj] at h; simp [h]
  · rename_i h
    split
    · rename_i hj; subst hj; simp at h
    · rename_i hj; rw [find?_write_other hj] at h; simp [h]

theorem word_of_find? {e k : Nat} {w : RawWord W} {m : Memory W} (h : m.find? k = some w) : m.word e k = w := by
  simp [word, h]

end Sys2Proof.Machine.Memory

namespace Sys2Proof.Machine

variable {W : Nat}

/-- R43, R50: what any later fetch of index `j` sees after a toggle of index `k`. -/
theorem toggleKind_word (s : Record W) (k : Nat) (c : BitVec 3) (j : Nat) :
    (s.toggleKind k c).word j = if j = k then setKindField (s.word k) c else s.word j := by
  simp only [Record.word, Record.toggleKind_prog, Record.toggleKind_port, Memory.word_write]

theorem programWritten_iff (s : Record W) :
    s.programWritten = true ↔ ∀ k, k < s.plen → (s.prog.find? k).isSome = true := by
  simp [Record.programWritten]

end Sys2Proof.Machine
end

