-- ==== Sys2Proof/Laws/Encoding.lean ====
section
/-!
SUPPORT. Laws/Encoding.lean: the fields of an assembled word and of a toggled one, kinds and their codes, and what the
decoder can answer.
-/

namespace Sys2Proof

/-! ## Kinds -/

@[simp] theorem Kind.ofCode_code (k : Kind) : Kind.ofCode k.code = some k := by cases k <;> rfl

theorem Kind.code_of_ofCode {c : BitVec 3} {k : Kind} (h : Kind.ofCode c = some k) : k.code = c := by
  revert c; cases k <;> decide

theorem Kind.ofCode_none_iff (c : BitVec 3) : Kind.ofCode c = none ↔ 5 ≤ c.toNat := by
  revert c; decide

@[simp] theorem Kind.instr_kind (k : Kind) (a b : Operand) : (k.instr a b).kind = k := by cases k <;> rfl

variable {W : Nat}

/-! ## Fields of an assembled word -/

variable (rsv kind : BitVec 3) (t : BitVec 1) (v : Word W) (b : BitVec (1 + W))

/-- R56: every bit of an assembled word. -/
theorem getLsbD_assemble (i : Nat) : (assemble rsv kind t v b).getLsbD i =
    if i < 1 + W then b.getLsbD i else if i < 1 + W + W then v.getLsbD (i - (1 + W))
    else if i < 2 * W + 2 then t.getLsbD (i - (2 * W + 1))
    else if i < 2 * W + 5 then kind.getLsbD (i - (2 * W + 2)) else rsv.getLsbD (i - (2 * W + 5)) := by
  simp only [assemble, BitVec.getLsbD_cast, BitVec.getLsbD_append]
  have e3 : i - (1 + W) - W = i - (2 * W + 1) := by omega
  have e4 : i - (2 * W + 1) - 1 = i - (2 * W + 2) := by omega
  have e5 : i - (2 * W + 2) - 3 = i - (2 * W + 5) := by omega
  rw [e3, e4, e5]
  by_cases h1 : i < 1 + W
  · simp only [if_pos h1]
  by_cases h2 : i < 1 + W + W
  · simp only [if_neg h1, if_pos h2, if_pos (show i - (1 + W) < W by omega)]
  by_cases h3 : i < 2 * W + 2
  · simp only [if_neg h1, if_neg h2, if_pos h3, if_neg (show ¬ i - (1 + W) < W by omega),
      if_pos (show i - (2 * W + 1) < 1 by omega)]
  by_cases h4 : i < 2 * W + 5
  · simp only [if_neg h1, if_neg h2, if_neg h3, if_pos h4, if_neg (show ¬ i - (1 + W) < W by omega),
      if_neg (show ¬ i - (2 * W + 1) < 1 by omega), if_pos (show i - (2 * W + 2) < 3 by omega)]
  · simp only [if_neg h1, if_neg h2, if_neg h3, if_neg h4, if_neg (show ¬ i - (1 + W) < W by omega),
      if_neg (show ¬ i - (2 * W + 1) < 1 by omega), if_neg (show ¬ i - (2 * W + 2) < 3 by omega)]

@[simp] theorem rsvField_assemble : rsvField (assemble rsv kind t v b) = rsv := by
  apply BitVec.eq_of_getLsbD_eq
  intro i hi
  rw [rsvField, BitVec.getLsbD_extractLsb', getLsbD_assemble, if_neg (by omega), if_neg (by omega), if_neg (by omega),
    if_neg (by omega), Nat.add_sub_cancel_left, decide_eq_true hi, Bool.true_and]

@[simp] theorem kindField_assemble : kindField (assemble rsv kind t v b) = kind := by
  apply BitVec.eq_of_getLsbD_eq
  intro i hi
  rw [kindField, BitVec.getLsbD_extractLsb', getLsbD_assemble, if_neg (by omega), if_neg (by omega), if_neg (by omega),
    if_pos (by omega), Nat.add_sub_cancel_left, decide_eq_true hi, Bool.true_and]

@[simp] theorem aTag_assemble : aTag (assemble rsv kind t v b) = t.getLsbD 0 := by
  rw [aTag, getLsbD_assemble, if_neg (by omega), if_neg (by omega), if_pos (by omega), Nat.sub_self]

@[simp] theorem aVal_assemble : aVal (assemble rsv kind t v b) = v := by
  apply BitVec.eq_of_getLsbD_eq
  intro i hi
  rw [aVal, BitVec.getLsbD_extractLsb', getLsbD_assemble, if_neg (by omega), if_pos (by omega), Nat.add_comm W 1,
    Nat.add_sub_cancel_left, decide_eq_true hi, Bool.true_and]

@[simp] theorem bTag_assemble : bTag (assemble rsv kind t v b) = b.getLsbD W := by
  rw [bTag, getLsbD_assemble, if_pos (by omega)]

@[simp] theorem bVal_assemble : bVal (assemble rsv kind t v b) = b.extractLsb' 0 W := by
  apply BitVec.eq_of_getLsbD_eq
  intro i hi
  rw [bVal, BitVec.getLsbD_extractLsb', BitVec.getLsbD_extractLsb', getLsbD_assemble, if_pos (by omega)]

@[simp] theorem bField_assemble : bField (assemble rsv kind t v b) = b := by
  apply BitVec.eq_of_getLsbD_eq
  intro i hi
  rw [bField, BitVec.getLsbD_extractLsb', getLsbD_assemble, if_pos (by omega), Nat.zero_add, decide_eq_true hi,
    Bool.true_and]

/-- A word is determined by its fields. -/
theorem word_ext {u w : RawWord W} (h1 : rsvField u = rsvField w) (h2 : kindField u = kindField w)
    (h3 : aTag u = aTag w) (h4 : aVal u = aVal w) (h5 : bField u = bField w) : u = w := by
  have key : ∀ (lo n i : Nat), u.extractLsb' lo n = w.extractLsb' lo n → lo ≤ i → i < lo + n →
      u.getLsbD i = w.getLsbD i := by
    intro lo n i h hlo hi
    have := congrArg (fun z => z.getLsbD (i - lo)) h
    simp only [BitVec.getLsbD_extractLsb'] at this
    rw [show lo + (i - lo) = i by omega] at this
    simpa [show i - lo < n by omega] using this
  apply BitVec.eq_of_getLsbD_eq
  intro i hi
  unfold Config.ILEN at hi
  by_cases c1 : i < 1 + W
  · exact key 0 (1 + W) i h5 (by omega) (by omega)
  by_cases c2 : i < W + 1 + W
  · exact key (W + 1) W i h4 (by omega) (by omega)
  by_cases c3 : i = 2 * W + 1
  · subst c3; exact h3
  by_cases c4 : i < 2 * W + 5
  · exact key (2 * W + 2) 3 i h2 (by omega) (by omega)
  · exact key (2 * W + 5) 3 i h1 (by omega) (by omega)

/-! ## Fields of a toggled word (R43) -/

variable (w : RawWord W)

/-- R43: every bit of a toggled word. -/
theorem getLsbD_setKindField (i : Nat) : (setKindField w kind).getLsbD i =
    if 2 * W + 2 ≤ i ∧ i < 2 * W + 5 then kind.getLsbD (i - (2 * W + 2)) else w.getLsbD i := by
  simp only [setKindField, rsvField, BitVec.getLsbD_cast, BitVec.getLsbD_append, BitVec.getLsbD_extractLsb']
  by_cases h1 : i < 2 * W + 2
  · rw [if_pos h1, if_neg (by omega)]; simp [h1]
  by_cases h2 : i < 2 * W + 5
  · rw [if_neg h1, if_pos (by omega), if_pos (by omega)]
  · rw [if_neg h1, if_neg (by omega), if_neg (by omega), show 2 * W + 5 + (i - (2 * W + 2) - 3) = i by omega]
    by_cases h3 : i < 2 * W + 8
    · simp [show i - (2 * W + 2) - 3 < 3 by omega]
    · rw [BitVec.getLsbD_of_ge w i (by unfold Config.ILEN; omega), Bool.and_false]

@[simp] theorem rsvField_setKindField : rsvField (setKindField w kind) = rsvField w := by
  apply BitVec.eq_of_getLsbD_eq
  intro i hi
  rw [rsvField, rsvField, BitVec.getLsbD_extractLsb', BitVec.getLsbD_extractLsb', getLsbD_setKindField,
    if_neg (by omega)]

@[simp] theorem kindField_setKindField : kindField (setKindField w kind) = kind := by
  apply BitVec.eq_of_getLsbD_eq
  intro i hi
  rw [kindField, BitVec.getLsbD_extractLsb', getLsbD_setKindField, if_pos (by omega), Nat.add_sub_cancel_left,
    decide_eq_true hi, Bool.true_and]

@[simp] theorem aTag_setKindField : aTag (setKindField w kind) = aTag w := by
  rw [aTag, getLsbD_setKindField, if_neg (by omega)]; rfl

@[simp] theorem aVal_setKindField : aVal (setKindField w kind) = aVal w := by
  apply BitVec.eq_of_getLsbD_eq
  intro i hi
  rw [aVal, aVal, BitVec.getLsbD_extractLsb', BitVec.getLsbD_extractLsb', getLsbD_setKindField, if_neg (by omega)]

@[simp] theorem bTag_setKindField : bTag (setKindField w kind) = bTag w := by
  rw [bTag, getLsbD_setKindField, if_neg (by omega)]; rfl

@[simp] theorem bVal_setKindField : bVal (setKindField w kind) = bVal w := by
  apply BitVec.eq_of_getLsbD_eq
  intro i hi
  rw [bVal, bVal, BitVec.getLsbD_extractLsb', BitVec.getLsbD_extractLsb', getLsbD_setKindField, if_neg (by omega)]

@[simp] theorem bField_setKindField : bField (setKindField w kind) = bField w := by
  apply BitVec.eq_of_getLsbD_eq
  intro i hi
  rw [bField, bField, BitVec.getLsbD_extractLsb', BitVec.getLsbD_extractLsb', getLsbD_setKindField, if_neg (by omega)]

@[simp] theorem operandA_setKindField : operandA (setKindField w kind) = operandA w := by simp [operandA]

@[simp] theorem operandB_setKindField : operandB (setKindField w kind) = operandB w := by simp [operandB]

/-! ## Operand fields -/

/-- R56, R62: operand B is its VAL and its TAG. -/
theorem bField_ext {u w : RawWord W} (h1 : bTag u = bTag w) (h2 : bVal u = bVal w) : bField u = bField w := by
  apply BitVec.eq_of_getLsbD_eq
  intro i hi
  by_cases h : i < W
  · have := congrArg (fun z => z.getLsbD i) h2
    simpa [bVal, bField, h, hi] using this
  · obtain rfl : i = W := by omega
    simpa [bTag, bField] using h1

/-- R58, R73: an operand that fits is what its TAG and VAL encode. -/
theorem operandOf_tag_field {nreg : Nat} (hW : 1 ≤ W) (hn : nreg ≤ 2 ^ W) {o : Operand} (h : o.fits W nreg = true) :
    operandOf (o.tag.getLsbD 0) (o.field W) = o := by
  cases o with
  | imm k =>
    simp only [Operand.fits, Bool.and_eq_true, decide_eq_true_eq] at h
    have : (BitVec.ofInt W k).toInt = k := BitVec.toInt_ofInt_eq_self hW h.1 (by omega)
    simp [operandOf, Operand.tag, Operand.field, this]
  | reg i =>
    have hi : i < nreg := by simpa [Operand.fits] using h
    have : i % 2 ^ W = i := Nat.mod_eq_of_lt (Nat.lt_of_lt_of_le hi hn)
    simp [operandOf, Operand.tag, Operand.field, this]

@[simp] theorem tag_operandOf (tag : Bool) (v : Word W) : (operandOf tag v).tag.getLsbD 0 = tag := by
  cases tag <;> simp [operandOf, Operand.tag]

@[simp] theorem field_operandOf (tag : Bool) (v : Word W) : (operandOf tag v).field W = v := by
  cases tag <;> simp [operandOf, Operand.field]

@[simp] theorem pack_tag (o : Operand) : (o.pack W).getLsbD W = o.tag.getLsbD 0 := by
  rw [Operand.pack, BitVec.getLsbD_append, if_neg (Nat.lt_irrefl _), Nat.sub_self]

@[simp] theorem pack_field (o : Operand) : (o.pack W).extractLsb' 0 W = o.field W := by
  apply BitVec.eq_of_getLsbD_eq
  intro i hi
  simp [Operand.pack, BitVec.getLsbD_append, hi]

theorem operandA_assemble : operandA (assemble rsv kind t v b) = operandOf (t.getLsbD 0) v := by
  rw [operandA, aTag_assemble, aVal_assemble]

theorem operandB_assemble (o : Operand) :
    operandB (assemble rsv kind t v (o.pack W)) = operandOf (o.tag.getLsbD 0) (o.field W) := by
  rw [operandB, bTag_assemble, bVal_assemble, pack_tag, pack_field]

theorem bField_assemble_noOperand : bField (assemble rsv kind t v (noOperand W)) = 0 := bField_assemble ..

/-- R66: a register operand read from a word exists exactly when its VAL is below NREG. -/
theorem inFile_operandOf (nreg : Nat) (tag : Bool) (val : Word W) :
    (operandOf tag val).inFile nreg = (!tag || decide (val.toNat < nreg)) := by
  cases tag <;> simp [operandOf, Operand.inFile]

/-- R65: the value of a W-bit field always fits: an operand read from a word fits exactly when its register exists. -/
theorem fits_operandOf (nreg : Nat) (tag : Bool) (val : Word W) :
    (operandOf tag val).fits W nreg = (operandOf tag val).inFile nreg := by
  cases tag with
  | true => rfl
  | false =>
    have h1 := BitVec.le_toInt val
    have h2 : val.toInt < 2 ^ (W - 1) := BitVec.toInt_lt
    simp only [operandOf, Operand.fits, Operand.inFile, Bool.false_eq_true, if_false, Bool.and_eq_true,
      decide_eq_true_eq]
    omega

/-- An operand that fits names no register that does not exist. -/
theorem inFile_of_fits {nreg : Nat} {o : Operand} (h : o.fits W nreg = true) : o.inFile nreg = true := by
  cases o with
  | imm k => rfl
  | reg i => exact h

/-- R64, R83: the registers of a well-formed instruction exist. -/
theorem registersExist_of_wellFormed {nreg : Nat} {i : Instr} (h : i.wellFormed W nreg = true) :
    i.registersExist nreg = true := by
  cases i with
  | cpy a b =>
    simp only [Instr.wellFormed, Bool.and_eq_true] at h
    simp [Instr.registersExist, inFile_of_fits h.1, inFile_of_fits h.2]
  | inc a => exact inFile_of_fits h
  | dec a => exact inFile_of_fits h
  | jnz a b =>
    simp only [Instr.wellFormed, Bool.and_eq_true] at h
    simp [Instr.registersExist, inFile_of_fits h.1, inFile_of_fits h.2]
  | tgl a => exact inFile_of_fits h

/-! ## The decoder -/

/-- R68: everything the decoder can answer when it answers an instruction. -/
theorem decode_ok {nreg : Nat} {w : RawWord W} {i : Instr} (h : decode nreg w = .ok i) :
    ∃ k, Kind.ofCode (kindField w) = some k ∧ rsvField w = 0 ∧ (k.oneOperand = true → bField w = 0) ∧
      (operandA w).inFile nreg = true ∧ (k.oneOperand = false → (operandB w).inFile nreg = true) ∧
      i = k.instr (operandA w) (operandB w) := by
  unfold decode at h
  split at h
  · cases h
  · rename_i k hk
    split at h
    · cases h
    split at h
    · cases h
    split at h
    · cases h
    split at h
    · cases h
    rename_i h1 h2 h3 h4
    cases h
    refine ⟨k, hk, by simpa using h1, fun ho => ?_, by simpa using h3, fun ho => ?_, rfl⟩
    · by_contra hb; exact h2 ⟨ho, hb⟩
    · by_contra hb; exact h4 (by simp_all)

/-- R68: the decoder's answer when every check passes. -/
theorem decode_of_checks {nreg : Nat} {w : RawWord W} {k : Kind} (hk : Kind.ofCode (kindField w) = some k)
    (hr : rsvField w = 0) (hb : k.oneOperand = true → bField w = 0) (ha : (operandA w).inFile nreg = true)
    (hc : k.oneOperand = false → (operandB w).inFile nreg = true) :
    decode nreg w = .ok (k.instr (operandA w) (operandB w)) := by
  cases hk' : k.oneOperand with
  | true => simp [decode, hk, hr, hb hk', ha, hk']
  | false => simp [decode, hk, hr, ha, hk', hc hk']

/-- R64: the decoder answers well-formed instructions only. -/
theorem decode_wellFormed {nreg : Nat} {w : RawWord W} {i : Instr} (h : decode nreg w = .ok i) :
    i.wellFormed W nreg = true := by
  obtain ⟨k, -, -, -, ha, hb, rfl⟩ := decode_ok h
  rw [operandA, ← fits_operandOf] at ha
  rw [operandB, ← fits_operandOf] at hb
  cases k <;> simp_all [Kind.instr, Instr.wellFormed, Kind.oneOperand, operandA, operandB]

/-- R83: the registers of a decoded instruction exist. -/
theorem decode_registersExist {nreg : Nat} {w : RawWord W} {i : Instr} (h : decode nreg w = .ok i) :
    i.registersExist nreg = true := by
  obtain ⟨k, -, -, -, ha, hb, rfl⟩ := decode_ok h
  cases k <;> simp_all [Kind.instr, Instr.registersExist, Kind.oneOperand]

/-- R115 to R117: the decoder never raises the toggle engine's fault. -/
theorem decode_error_ne_toggle {nreg : Nat} {w : RawWord W} {f : CoreFault W} (h : decode nreg w = .error f) (t : Word W) :
    f ≠ .toggleUnmapped t := by
  unfold decode at h
  repeat' split at h
  all_goals first | (cases h; simp) | cases h

end Sys2Proof
end

