-- ==== Sys2Proof/Laws/Machine.lean ====
section
/-!
SUPPORT. Laws/Machine.lean: one lemma per shared operation that says everything it can do: registers, the program's
range, operands, the register guard, the meanings, and one step.
-/

namespace Sys2Proof.Machine

variable {W : Nat} (s : Record W)

/-! ## The program's range (R79) -/

theorem inProgram_iff (t : Word W) : s.inProgram t = true ↔ 0 ≤ t.toInt ∧ t.toInt < s.plen := by
  simp [Record.inProgram]

theorem not_inProgram_iff (t : Word W) : s.inProgram t = false ↔ t.toInt < 0 ∨ (s.plen : Int) ≤ t.toInt := by
  rw [← Bool.not_eq_true, inProgram_iff]; omega

/-- On an index of the program the signed and the unsigned reading agree. -/
theorem toNat_of_inProgram {s : Record W} {t : Word W} (h : s.inProgram t = true) :
    (t.toNat : Int) = t.toInt ∧ t.toNat < s.plen := by
  obtain ⟨h0, h1⟩ := (inProgram_iff s t).1 h
  have hn : (t.toNat : Int) = t.toInt := by
    have hlt := t.isLt
    have hc := BitVec.toInt_eq_toNat_cond t
    by_cases h2 : 2 * t.toNat < 2 ^ W
    · rw [hc, if_pos h2]
    · rw [if_neg h2] at hc; omega
  exact ⟨hn, by omega⟩

/-! ## Registers (R11, R17) -/

theorem readX_writeX_same {i : Nat} (h : i < s.nreg) (v : Word W) : (s.writeX i v).readX i = v := by
  have h' : i < s.x.length := h
  simp [Record.readX, Record.writeX_x, h']

theorem readX_writeX_other {i j : Nat} (h : j ≠ i) (v : Word W) : (s.writeX i v).readX j = s.readX j := by
  simp [Record.readX, Record.writeX_x, List.getElem?_set_ne (Ne.symm h)]

@[simp] theorem readX_advance (i : Nat) : s.advance.readX i = s.readX i := rfl
@[simp] theorem readX_withPc (t : Word W) (i : Nat) : (s.withPc t).readX i = s.readX i := rfl
@[simp] theorem readX_toggleKind (k : Nat) (c : BitVec 3) (i : Nat) : (s.toggleKind k c).readX i = s.readX i := rfl

/-- R17: writing back the value a register holds changes nothing. -/
theorem writeX_readX (i : Nat) : s.writeX i (s.readX i) = s := by
  have : s.x.set i (s.x.getD i 0) = s.x := by
    apply List.ext_getElem?
    intro j
    by_cases h : i = j
    · subst h
      by_cases hi : i < s.x.length
      · simp [hi]
      · simp [List.set_eq_of_length_le (Nat.le_of_not_lt hi)]
    · simp [h]
  rw [Record.writeX, Record.readX, this]; rfl

theorem writeX_writeX (i : Nat) (u v : Word W) : (s.writeX i u).writeX i v = s.writeX i v := by
  simp [Record.writeX, Record.withX]

/-! ## Operands (R84 to R86) -/

@[simp] theorem val_imm (k : Int) : val (.imm k) s = BitVec.ofInt W k := rfl
@[simp] theorem val_reg (i : Nat) : val (.reg i) s = s.readX i := rfl
@[simp] theorem ridx_imm (k : Int) : ridx (.imm k) = none := rfl
@[simp] theorem ridx_reg (i : Nat) : ridx (.reg i) = some i := rfl
@[simp] theorem writeIfReg_imm (k : Int) (v : Word W) : writeIfReg (.imm k) v s = s := rfl
@[simp] theorem writeIfReg_reg (i : Nat) (v : Word W) : writeIfReg (.reg i) v s = s.writeX i v := rfl
@[simp] theorem updateIfReg_imm (k : Int) (f : Word W → Word W) : updateIfReg (.imm k) f s = s := rfl
@[simp] theorem updateIfReg_reg (i : Nat) (f : Word W → Word W) :
    updateIfReg (.reg i) f s = s.writeX i (f (s.readX i)) := rfl

/-- R86: a write through an operand changes the register list at most, and never its length (R18). -/
theorem writeIfReg_eq (op : Operand) (v : Word W) :
    ∃ x, writeIfReg op v s = s.withX x ∧ x.length = s.x.length := by
  cases op with
  | imm k => exact ⟨s.x, rfl, rfl⟩
  | reg i => exact ⟨s.x.set i v, rfl, List.length_set⟩

theorem updateIfReg_eq (op : Operand) (f : Word W → Word W) :
    ∃ x, updateIfReg op f s = s.withX x ∧ x.length = s.x.length := by
  cases op with
  | imm k => exact ⟨s.x, rfl, rfl⟩
  | reg i => exact ⟨s.x.set i _, rfl, List.length_set⟩

/-! ## The register guard (R83) -/

theorem guardReg_valid {slot : Slot} {op : Operand} {s : Record W} {body : Record W} (h : op.inFile s.nreg = true) :
    guardReg slot op s body = body := by
  simp [guardReg, h]

theorem guardReg_bad {slot : Slot} {op : Operand} {s : Record W} {body : Record W} (h : op.inFile s.nreg = false) :
    guardReg slot op s body = raise (.badRegister slot) s := by
  simp [guardReg, h]

/-- R83: everything the guard can do. -/
theorem guardReg_cases (slot : Slot) (op : Operand) (body : Record W) :
    (op.inFile s.nreg = true ∧ guardReg slot op s body = body) ∨
    (op.inFile s.nreg = false ∧ guardReg slot op s body = raise (.badRegister slot) s) := by
  cases h : op.inFile s.nreg with
  | true => exact .inl ⟨rfl, guardReg_valid h⟩
  | false => exact .inr ⟨rfl, guardReg_bad h⟩

/-! ## The meanings when their register operands exist -/

variable {s}

theorem exec_cpy {a b : Operand} (ha : a.inFile s.nreg = true) (hb : b.inFile s.nreg = true) :
    exec (.cpy a b) s.state = .next (writeIfReg b (val a s) s).advance.state := by
  rw [exec, execCpy, guardReg_valid ha, guardReg_valid hb]

theorem exec_inc {a : Operand} (ha : a.inFile s.nreg = true) :
    exec (.inc a) s.state = .next (updateIfReg a (fun v => v + 1) s).advance.state := by
  rw [exec, execInc, guardReg_valid ha]

theorem exec_dec {a : Operand} (ha : a.inFile s.nreg = true) :
    exec (.dec a) s.state = .next (updateIfReg a (fun v => v - 1) s).advance.state := by
  rw [exec, execDec, guardReg_valid ha]

theorem exec_jnz_zero {a b : Operand} (ha : a.inFile s.nreg = true) (hb : b.inFile s.nreg = true)
    (hz : val a s = 0) : exec (.jnz a b) s.state = .next s.advance.state := by
  rw [exec, execJnz, guardReg_valid ha, guardReg_valid hb, isZero, if_pos (decide_eq_true hz)]

theorem exec_jnz_taken {a b : Operand} (ha : a.inFile s.nreg = true) (hb : b.inFile s.nreg = true)
    (hz : val a s ≠ 0) : exec (.jnz a b) s.state = .next (s.withPc (s.pc + val b s)).state := by
  rw [exec, execJnz, guardReg_valid ha, guardReg_valid hb, isZero, if_neg (by simpa using hz)]

theorem exec_tgl_out {a : Operand} (ha : a.inFile s.nreg = true) (h : s.inProgram (s.pc + val a s) = false) :
    exec (.tgl a) s.state = .next s.advance.state := by
  rw [exec, execTgl, guardReg_valid ha, toggleTarget, if_neg (by rw [h]; exact Bool.false_ne_true)]

theorem exec_tgl_toggles {a : Operand} {k : Kind} (ha : a.inFile s.nreg = true)
    (h : s.inProgram (s.pc + val a s) = true)
    (hk : Kind.ofCode (kindField (s.word (s.pc + val a s).toNat)) = some k) :
    exec (.tgl a) s.state = .next (s.toggleKind (s.pc + val a s).toNat (toggle k).code).advance.state := by
  rw [exec, execTgl, guardReg_valid ha]
  simp only [toggleTarget, h, hk, if_true]

theorem exec_tgl_unmapped {a : Operand} (ha : a.inFile s.nreg = true) (h : s.inProgram (s.pc + val a s) = true)
    (hk : Kind.ofCode (kindField (s.word (s.pc + val a s).toNat)) = none) :
    exec (.tgl a) s.state = .next (raise (.toggleUnmapped (s.pc + val a s)) s).state := by
  rw [exec, execTgl, guardReg_valid ha]
  simp only [toggleTarget, h, hk, if_true]

variable (s)

/-! ## What an instruction can do -/

/-- The effects an instruction can have (R31, R77): it raises a fault; it writes registers and advances; it branches; or
it toggles the KIND of one word of the program and advances. -/
inductive Effect (s : Record W) : Record W → Prop
  | raised (f : CoreFault W) : Effect s (raise f s)
  | wrote (x : List (Word W)) (h : x.length = s.x.length) : Effect s (s.withX x).advance
  | branched (t : Word W) : Effect s (s.withPc t)
  | toggled (k : Nat) (c : Kind) (hk : k < s.plen) : Effect s (s.toggleKind k c.code).advance

/-- The effects an instruction whose register operands exist can have. -/
inductive CleanEffect (i : Instr) (s : Record W) : Record W → Prop
  | wrote (x : List (Word W)) (h : x.length = s.x.length) : CleanEffect i s (s.withX x).advance
  | branched (t : Word W) : CleanEffect i s (s.withPc t)
  | toggled (o : Operand) (k : Kind) (hi : i = .tgl o) (hin : s.inProgram (toggleTarget o s) = true)
      (hk : Kind.ofCode (kindField (s.word (toggleTarget o s).toNat)) = some k) :
      CleanEffect i s (s.toggleKind (toggleTarget o s).toNat (toggle k).code).advance
  | unmapped (o : Operand) (hi : i = .tgl o) (hin : s.inProgram (toggleTarget o s) = true)
      (hk : Kind.ofCode (kindField (s.word (toggleTarget o s).toNat)) = none) :
      CleanEffect i s (raise (.toggleUnmapped (toggleTarget o s)) s)

/-- R93 to R109: everything an instruction whose register operands exist can do. It always answers a next state. -/
theorem exec_clean {i : Instr} (h : i.registersExist s.nreg = true) :
    ∃ t : Record W, exec i s.state = .next t.state ∧ CleanEffect i s t := by
  cases i with
  | cpy a b =>
    simp only [Instr.registersExist, Bool.and_eq_true] at h
    obtain ⟨x, hx, hl⟩ := writeIfReg_eq s b (val a s)
    exact ⟨_, exec_cpy h.1 h.2, hx ▸ .wrote x hl⟩
  | inc a =>
    obtain ⟨x, hx, hl⟩ := updateIfReg_eq s a (fun v => v + 1)
    exact ⟨_, exec_inc h, hx ▸ .wrote x hl⟩
  | dec a =>
    obtain ⟨x, hx, hl⟩ := updateIfReg_eq s a (fun v => v - 1)
    exact ⟨_, exec_dec h, hx ▸ .wrote x hl⟩
  | jnz a b =>
    simp only [Instr.registersExist, Bool.and_eq_true] at h
    by_cases hz : val a s = 0
    · exact ⟨_, exec_jnz_zero h.1 h.2 hz, .branched _⟩
    · exact ⟨_, exec_jnz_taken h.1 h.2 hz, .branched _⟩
  | tgl a =>
    cases hin : s.inProgram (s.pc + val a s) with
    | false => exact ⟨_, exec_tgl_out h hin, .branched _⟩
    | true =>
      cases hk : Kind.ofCode (kindField (s.word (s.pc + val a s).toNat)) with
      | none => exact ⟨_, exec_tgl_unmapped h hin hk, .unmapped a rfl hin hk⟩
      | some k => exact ⟨_, exec_tgl_toggles h hin hk, .toggled a k rfl hin hk⟩

/-- Equal records are equal next states. -/
theorem next_congr {t u : Record W} (h : t = u) : (.next t.state : Result) = .next u.state := h ▸ rfl

/-- R117: an instruction with a register operand that does not exist raises BAD_REGISTER, for its first such operand. -/
theorem exec_bad {i : Instr} (h : i.registersExist s.nreg = false) :
    ∃ slot, exec i s.state = .next (raise (.badRegister slot) s).state ∧
      (slot = .B ↔ ∃ a b, (i = .cpy a b ∨ i = .jnz a b) ∧ a.inFile s.nreg = true) := by
  have two : ∀ (a b : Operand) (body : Record W), (a.inFile s.nreg && b.inFile s.nreg) = false →
      ∃ slot, guardReg .A a s (guardReg .B b s body) = raise (.badRegister slot) s ∧
        (slot = .B ↔ a.inFile s.nreg = true) := by
    intro a b body h
    cases ha : a.inFile s.nreg with
    | false => exact ⟨.A, guardReg_bad ha, by simp⟩
    | true =>
      rw [guardReg_valid ha]
      exact ⟨.B, guardReg_bad (by simpa [ha] using h), by simp⟩
  cases i with
  | cpy a b =>
    obtain ⟨slot, hs, hb⟩ := two a b _ h
    exact ⟨slot, next_congr hs, hb.trans (by simp)⟩
  | inc a => exact ⟨.A, next_congr (guardReg_bad h), by simp⟩
  | dec a => exact ⟨.A, next_congr (guardReg_bad h), by simp⟩
  | jnz a b =>
    obtain ⟨slot, hs, hb⟩ := two a b _ h
    exact ⟨slot, next_congr hs, hb.trans (by simp)⟩
  | tgl a => exact ⟨.A, next_congr (guardReg_bad h), by simp⟩

theorem CleanEffect.effect {i : Instr} {s t : Record W} (h : CleanEffect i s t) : Effect s t := by
  cases h with
  | wrote x hl => exact .wrote x hl
  | branched t => exact .branched t
  | toggled o k hi hin hk => exact .toggled _ _ (toNat_of_inProgram hin).2
  | unmapped o hi hin hk => exact .raised _

/-- Everything any instruction term can do. -/
theorem exec_effect (i : Instr) : ∃ t : Record W, exec i s.state = .next t.state ∧ Effect s t := by
  cases h : i.registersExist s.nreg with
  | true => obtain ⟨t, ht, he⟩ := exec_clean s h; exact ⟨t, ht, he.effect⟩
  | false => obtain ⟨slot, ht, -⟩ := exec_bad s h; exact ⟨_, ht, .raised _⟩

/-- R77: everything one `Step()` can do. -/
theorem performStep_effect : ∃ t : Record W, performStep s = .next t.state ∧ Effect s t := by
  unfold performStep
  split
  · exact ⟨_, rfl, .raised _⟩
  · exact exec_effect s _

theorem performStep_ok {s : Record W} {i : Instr} (h : decode s.nreg s.fetch = .ok i) :
    performStep s = exec i s.state := by
  simp [performStep, h]

theorem performStep_error {s : Record W} {f : CoreFault W} (h : decode s.nreg s.fetch = .error f) :
    performStep s = .next (raise f s).state := by
  simp [performStep, h]

/-! ## The sequencer (R88 to R91) -/

@[simp] theorem onRecord_next (f : {W : Nat} → Record W → Record W) (t : Record W) :
    onRecord f (.next t.state) = .next (f t).state := rfl

theorem finishRunStep_faulted {t : Record W} (h : t.runState = .faulted) : finishRunStep t = t := by
  simp [finishRunStep, h]

theorem finishRunStep_halt {t : Record W} (h : t.runState ≠ .faulted) (hp : t.inProgram t.pc = false) :
    finishRunStep t = t.endRun .halted := by
  simp [finishRunStep, h, hp]

theorem finishRunStep_stop {t : Record W} (h : t.runState ≠ .faulted) (hp : t.inProgram t.pc = true)
    (hs : t.stopPending = true) : finishRunStep t = t.endRun .idle := by
  simp [finishRunStep, h, hp, hs]

theorem finishRunStep_go {t : Record W} (h : t.runState ≠ .faulted) (hp : t.inProgram t.pc = true)
    (hs : t.stopPending = false) : finishRunStep t = t.markBoundary := by
  simp [finishRunStep, h, hp, hs]

theorem finishSingleStep_faulted {t : Record W} (h : t.runState = .faulted) : finishSingleStep t = t := by
  simp [finishSingleStep, h]

theorem runStep_inProgram {s : Record W} (h : s.inProgram s.pc = true) :
    ∃ t : Record W, performStep s = .next t.state ∧ runStep s = .next (finishRunStep t).state ∧ Effect s t := by
  obtain ⟨t, ht, he⟩ := performStep_effect s
  exact ⟨t, ht, by rw [runStep, if_pos h, ht, onRecord_next], he⟩

theorem runStep_out {s : Record W} (h : s.inProgram s.pc = false) : runStep s = .next (s.endRun .halted).state := by
  simp [runStep, h]

theorem tick_running {s : Record W} (h : s.runState = .running) : tick s = runStep s := by simp [tick, h]

theorem tick_waiting {s : Record W} (h : s.runState ≠ .running) : tick s = .next s.state := by
  cases hr : s.runState <;> simp_all [tick]

/-- R87: the host may write and command exactly in IDLE and HALTED. -/
theorem hostMayWrite_iff : hostMayWrite s = true ↔ s.runState = .idle ∨ s.runState = .halted := by
  simp [hostMayWrite]

/-! ## One step -/

theorem step_noAccess {s : Record W} (h : s.port.pending = []) : step s.state = tick s := by
  simp [step, stepOnce, h]

theorem step_access {s : Record W} {a : HostAccess W} {rest : List (HostAccess W)} (h : s.port.pending = a :: rest) :
    step s.state = hostAccess a (dropPending rest s) := by
  simp [step, stepOnce, h]

/-- Leaving the host's list as it is changes nothing. -/
theorem dropPending_self {s : Record W} {rest : List (HostAccess W)} (h : s.port.pending = rest) :
    dropPending rest s = s := by
  subst h; rfl

/-- The step that is the CORE's is a step of it, and the host's entry for it is used up. -/
theorem step_core {s : Record W} {rest : List (HostAccess W)} (h : CoreIsNext s rest) :
    step s.state = tick (dropPending rest s) := by
  rcases h with ⟨h, rfl⟩ | h
  · rw [step_noAccess h, dropPending_self h]
  · rw [step_access h]; rfl

/-- A run of `n + 1` steps is a step and then a run of `n`. -/
theorem run_succ_of_step {s t : State} (h : step s = .next t) (n : Nat) :
    Host.Core.run core (n + 1) s = Host.Core.run core n t := by
  have h' : Sys2Proof.core.step s = .next t := h
  simp only [Host.Core.run, h']

@[simp] theorem run_zero (s : State) : Host.Core.run core 0 s = .next s := rfl

end Sys2Proof.Machine
end

