-- ==== Sys2Proof/Laws/PerInstr.lean ====
section
/-!
SUPPORT. Laws/PerInstr.lean: statements made of every instruction as syntax, one lemma per constructor.
-/

namespace Sys2Proof.Laws.EncodeFields

/-- R59, R62, R63, R73: the word of an instruction has RSV zero, the KIND code of its kind, and, for a one-operand kind,
operand B zero. -/
def Statement (i : Instr) : Prop :=
  ∀ W, rsvField (encode W i) = 0 ∧ kindField (encode W i) = i.kind.code ∧
    (i.kind.oneOperand = true → bField (encode W i) = 0)

theorem cpy (src dst : Operand) : Statement (.cpy src dst) :=
  fun _ => ⟨rsvField_assemble .., kindField_assemble .., fun h => Bool.noConfusion h⟩

theorem inc (x : Operand) : Statement (.inc x) :=
  fun _ => ⟨rsvField_assemble .., kindField_assemble .., fun _ => bField_assemble_noOperand ..⟩

theorem dec (x : Operand) : Statement (.dec x) :=
  fun _ => ⟨rsvField_assemble .., kindField_assemble .., fun _ => bField_assemble_noOperand ..⟩

theorem jnz (x y : Operand) : Statement (.jnz x y) :=
  fun _ => ⟨rsvField_assemble .., kindField_assemble .., fun h => Bool.noConfusion h⟩

theorem tgl (x : Operand) : Statement (.tgl x) :=
  fun _ => ⟨rsvField_assemble .., kindField_assemble .., fun _ => bField_assemble_noOperand ..⟩

end Sys2Proof.Laws.EncodeFields
end

