-- ==== Sys2Proof/Tests/Slice0.lean ====
section
/-!
SUPPORT. Tests/Slice0.lean: the model's own tests, with expected results from the spec's worked encodings (R74) and test
vectors (95_test_vectors.md), and for every statement with hypotheses a concrete state that meets them.
-/

namespace Sys2Proof.Tests

open Sys2Proof Sys2Proof.Machine

/-! ## Helpers: machines at the reference parameters -/

/-- A RUNNING machine with program `ws`, registers `x` and program counter `pc`. -/
def load (ws : List (RawWord 32)) (x : List (Word 32)) (pc : Word 32) : Record 32 :=
  Record.beginRun { Record.resetAt 32 4 (2 ^ 16) with
    x := x, pc := pc, plen := ws.length, prog := (List.range ws.length).zip ws }

/-- The same machine in `r`, with the host accesses `q` to come. -/
def waiting (r : RunState) (ws : List (RawWord 32)) (x : List (Word 32)) (pc : Word 32) (q : List (HostAccess 32)) :
    Record 32 :=
  ((load ws x pc).endRun r).withPort { HostPort.initial 32 with pending := q }

/-- The same machine RUNNING, with the host accesses `q` to come. -/
def runningWith (ws : List (RawWord 32)) (x : List (Word 32)) (pc : Word 32) (q : List (HostAccess 32)) : Record 32 :=
  dropPending q (load ws x pc)

/-- The machine FAULTED after vector F1, with the host accesses `q` to come. -/
def faultedWith (q : List (HostAccess 32)) : Record 32 :=
  (waiting .faulted [0x140000000000000000] [1, 2, 3, 4] 0 q).withFault 1 5

/-- What a field of the next state of a machine of width `W` is, if there is a next state. -/
def seeAt (W : Nat) {α : Type} (r : Result) (f : Record W → α) : Option α :=
  match r with
  | .next t => if h : t.W = W then some (f (h ▸ t.record)) else none
  | .fault _ => none
  | .refused _ => none

/-- The same at the reference width. -/
def see {α : Type} (r : Result) (f : Record 32 → α) : Option α := seeAt 32 r f

/-- The command code `c` written to COMMAND. -/
def cmd (c : Word 32) : HostAccess 32 := .writeControl 6 c

/-- `inc a` -/
def incA : RawWord 32 := 0x060000000000000000

/-! ## Well-formedness: an ill-formed term for each check (R64) -/

theorem test_wellFormed_refuses_cpy_source : (Instr.cpy (.reg 4) (.reg 0)).wellFormed 32 4 = false := by decide
theorem test_wellFormed_refuses_cpy_destination : (Instr.cpy (.imm 1) (.reg 4)).wellFormed 32 4 = false := by decide
theorem test_wellFormed_refuses_inc : (Instr.inc (.reg 9)).wellFormed 32 4 = false := by decide
theorem test_wellFormed_refuses_dec : (Instr.dec (.reg 4)).wellFormed 32 4 = false := by decide
theorem test_wellFormed_refuses_jnz_condition : (Instr.jnz (.reg 7) (.imm 0)).wellFormed 32 4 = false := by decide
theorem test_wellFormed_refuses_jnz_offset : (Instr.jnz (.imm 0) (.reg 4)).wellFormed 32 4 = false := by decide
theorem test_wellFormed_refuses_tgl : (Instr.tgl (.reg 4)).wellFormed 32 4 = false := by decide
theorem test_wellFormed_refuses_immediates_too_wide :
    (Instr.cpy (.imm (2 ^ 31)) (.reg 0)).wellFormed 32 4 = false ∧
    (Instr.tgl (.imm (-2 ^ 31 - 1))).wellFormed 32 4 = false := by decide
theorem test_wellFormed_accepts_widest_immediates :
    (Instr.jnz (.imm (-2 ^ 31)) (.imm (2 ^ 31 - 1))).wellFormed 32 4 = true := by decide
theorem test_wellFormed_accepts_last_register : (Instr.cpy (.reg 3) (.reg 3)).wellFormed 32 4 = true := by decide

/-! ## Decoding and encoding: the words of R74 -/

theorem test_decode_cpy : decode (W := 32) 4 0x020000000100000001 = .ok (.cpy (.reg 0) (.reg 1)) := by decide
theorem test_decode_inc : decode (W := 32) 4 0x060000000000000000 = .ok (.inc (.reg 0)) := by decide
theorem test_decode_dec : decode (W := 32) 4 0x0A0000000000000000 = .ok (.dec (.reg 0)) := by decide
theorem test_decode_jnz : decode (W := 32) 4 0x0E0000000500000003 = .ok (.jnz (.reg 2) (.reg 3)) := by decide
theorem test_decode_tgl : decode (W := 32) 4 0x11FFFFFFFE00000000 = .ok (.tgl (.imm (-1))) := by decide

theorem test_encode_two_operand_kinds :
    encode 32 (.cpy (.imm 2) (.reg 0)) = 0x000000000500000000 ∧
    encode 32 (.cpy (.imm 5) (.imm 3)) = 0x000000000A00000003 ∧
    encode 32 (.cpy (.imm (-1)) (.reg 3)) = 0x01FFFFFFFF00000003 ∧
    encode 32 (.jnz (.imm 1) (.imm (-2))) = 0x0C00000002FFFFFFFE ∧
    encode 32 (.jnz (.reg 0) (.imm 2)) = 0x0E0000000000000002 := by decide

theorem test_encode_one_operand_kinds :
    encode 32 (.inc (.imm 7)) = 0x040000000E00000000 ∧
    encode 32 (.dec (.reg 1)) = 0x0A0000000200000000 ∧
    encode 32 (.tgl (.reg 2)) = 0x120000000400000000 := by decide

/-- opcode_table.json: the rows' own words. -/
theorem test_decodeTableWord :
    decodeTableWord 72 0x000000000000000000 = some (.cpy (.imm 0) (.imm 0)) ∧
    decodeTableWord 72 0x040000000000000000 = some (.inc (.imm 0)) ∧
    decodeTableWord 72 0x080000000000000000 = some (.dec (.imm 0)) ∧
    decodeTableWord 72 0x0C0000000000000000 = some (.jnz (.imm 0) (.imm 0)) ∧
    decodeTableWord 72 0x100000000000000000 = some (.tgl (.imm 0)) ∧
    decodeTableWord 72 0x140000000000000000 = none := by decide

/-- Vectors F1 to F6. -/
theorem test_decode_faults_of_kind_and_reserved_bits :
    decode (W := 32) 4 0x140000000000000000 = .error (.illegalKind 5) ∧
    decode (W := 32) 4 0x180000000000000000 = .error (.illegalKind 6) ∧
    decode (W := 32) 4 0x3C0000000000000000 = .error (.illegalKind 7) ∧
    decode (W := 32) 4 0x200000000300000000 = .error .reservedBits ∧
    decode (W := 32) 4 0x060000000000000001 = .error .reservedBits ∧
    decode (W := 32) 4 0x120000000100000000 = .error .reservedBits := by decide

/-- Vectors F7 to F10. -/
theorem test_decode_faults_of_registers :
    decode (W := 32) 4 0x060000000800000000 = .error (.badRegister .A) ∧
    decode (W := 32) 4 0x000000000300000004 = .error (.badRegister .B) ∧
    decode (W := 32) 4 0x0E0000000F00000009 = .error (.badRegister .A) ∧
    decode (W := 32) 4 0x0C0000000100000004 = .error (.badRegister .B) := by decide

/-! ## Another width: words of 24 bits, written out from R56 at W = 8 -/

theorem test_decode_at_width_8 :
    decode (W := 8) 4 0b000_001_1_00000000_0_00000000 = .ok (.inc (.reg 0)) ∧
    decode (W := 8) 4 0b000_000_0_11111111_1_00000011 = .ok (.cpy (.imm (-1)) (.reg 3)) ∧
    decode (W := 8) 4 0b000_011_0_00000001_1_00000100 = .error (.badRegister .B) := by decide

/-- R97 at W = 8: 127 + 1 is -128. -/
theorem test_inc_wraps_at_width_8 :
    seeAt 8 (step (Record.beginRun { Record.resetAt 8 1 4 with
      x := [127], plen := 2, prog := [(0, 0b000_001_1_00000000_0_00000000), (1, 0)] }).state)
      (fun t => (t.x.map BitVec.toInt, t.pc)) = some ([-128], 1) := by decide

/-! ## One step of each instruction -/

/-- Vector A2. -/
theorem test_cpy_register_to_register :
    see (step (load [0x020000000100000001, incA] [7, 0, 0, 0] 0).state) (fun t => (t.x, t.pc)) = some ([7, 7, 0, 0], 1) := by decide
/-- Vector A4. -/
theorem test_cpy_immediate_destination :
    see (step (load [0x000000000A00000003, incA] [1, 2, 3, 4] 0).state) (fun t => (t.x, t.pc)) = some ([1, 2, 3, 4], 1) := by decide
/-- Vector A9. -/
theorem test_inc_wraps :
    see (step (load [incA, incA] [0x7FFFFFFF, 0, 0, 0] 0).state) (fun t => (t.x, t.runState)) =
      some ([0x80000000, 0, 0, 0], .running) := by decide
/-- Vector A11. -/
theorem test_inc_immediate :
    see (step (load [0x040000000E00000000, incA] [1, 2, 3, 4] 0).state) (fun t => (t.x, t.pc)) = some ([1, 2, 3, 4], 1) := by decide
/-- Vector A14. -/
theorem test_dec_wraps :
    see (step (load [0x0A0000000600000000, incA] [0, 0, 0, 0x80000000] 0).state) (fun t => (t.x, t.runState)) =
      some ([0, 0, 0, 0x7FFFFFFF], .running) := by decide
/-- Vector A13. -/
theorem test_dec_zero :
    see (step (load [0x0A0000000000000000, incA] [0, 0, 0, 0] 0).state) (fun t => (t.x, t.pc)) = some ([-1, 0, 0, 0], 1) := by decide
/-- Vector B10. -/
theorem test_jnz_both_registers :
    see (step (load [incA, incA, incA, incA, incA, incA, 0x0E0000000500000003, incA] [0, 0, 2, -3] 6).state) (fun t => (t.x, t.pc)) =
      some ([0, 0, 2, -3], 3) := by decide
/-- Vector B12. -/
theorem test_jnz_wraps_and_halts :
    see (step (load [incA, incA, incA, incA, incA, 0x0C000000027FFFFFFF, incA, incA] [0, 0, 0, 0] 5).state)
      (fun t => (t.pc, t.runState)) = some (-2147483644, .halted) := by decide
/-- Vector T12: the target's RSV is kept. -/
theorem test_tgl_keeps_reserved_bits :
    see (step (load [0x100000000200000000, 0x260000000000000000, incA] [0, 0, 0, 0] 0).state) (fun t => (t.prog, t.pc)) =
      some ([(0, 0x100000000200000000), (1, 0x2A0000000000000000), (2, incA)], 1) := by decide
/-- Vector T11. -/
theorem test_tgl_unmapped :
    see (step (load [0x100000000200000000, 0x160000000000000000, incA] [0, 0, 0, 0] 0).state)
      (fun t => (t.runState, t.cause, t.finfo, t.pc)) = some (.faulted, 4, 1, 0) := by decide

/-! ## The sequencer and the host -/

/-- Vector F5. -/
theorem test_fault_entry :
    see (step (load [0x060000000000000001] [1, 0, 0, 0] 0).state) (fun t => (t.runState, t.cause, t.finfo, t.pc, t.x)) =
      some (.faulted, 2, 0, 0, [1, 0, 0, 0]) := by decide
/-- Vector H1. -/
theorem test_run_of_no_program :
    see (step (waiting .idle [] [0, 0, 0, 0] 0 [cmd 1]).state) (fun t => (t.runState, t.pc)) = some (.halted, 0) := by decide
/-- Vector H2. -/
theorem test_step_outside_program :
    see (step (waiting .idle [incA, incA, incA] [0, 0, 0, 0] 5 [cmd 3]).state) (fun t => (t.runState, t.pc)) =
      some (.halted, 5) := by decide
/-- Vector H3. -/
theorem test_resume_outside_program :
    see (step (waiting .idle [incA, incA, incA] [0, 0, 0, 0] (-1) [cmd 2]).state) (fun t => (t.runState, t.pc)) =
      some (.halted, -1) := by decide
/-- Vector H4. -/
theorem test_single_step_idles :
    see (step (waiting .idle [incA, incA] [0, 0, 0, 0] 0 [cmd 3]).state) (fun t => (t.runState, t.x, t.pc)) =
      some (.idle, [1, 0, 0, 0], 1) := by decide
/-- Vector H5. -/
theorem test_single_step_halts :
    see (step (waiting .idle [incA, incA] [1, 0, 0, 0] 1 [cmd 3]).state) (fun t => (t.runState, t.x, t.pc)) =
      some (.halted, [2, 0, 0, 0], 2) := by decide
/-- Vector H6, its last step: `jnz 1 0` with a STOP pending. -/
theorem test_stop_idles :
    see (step ((load [0x0C0000000200000000] [0, 0, 0, 0] 0).withStop true).state) (fun t => (t.runState, t.pc, t.stopPending)) =
      some (.idle, 0, false) := by decide
/-- Vector H7. -/
theorem test_faulted_refuses_run :
    see (step (faultedWith [cmd 1]).state) (fun t => (t.runState, t.cause)) = some (.faulted, 1) := by decide
/-- Vector H8. -/
theorem test_reset_leaves_faulted :
    see (step (faultedWith [.reset]).state) (fun t => (t.runState, t.cause, t.finfo, t.x, t.plen)) =
      some (.idle, 0, 0, [0, 0, 0, 0], 0) := by decide
/-- R26: STATUS of the FAULTED machine: STATE 3, CAUSE 1. -/
theorem test_status_read :
    see (step (faultedWith [.readControl 0]).state) (fun t => t.port.replies) = some [.word 0x13] := by decide
/-- R26, D25: PMAX is 2^16. -/
theorem test_plen_write_bound :
    see (step (waiting .idle [incA] [0, 0, 0, 0] 0 [.writeControl 2 0x10001]).state) (fun t => t.plen) = some 1 ∧
    see (step (waiting .idle [incA] [0, 0, 0, 0] 0 [.writeControl 2 0x10000]).state) (fun t => t.plen) = some 65536 := by decide
/-- R134. -/
theorem test_unwritten_launch_is_refused :
    see (step ((waiting .idle [incA] [0, 0, 0, 0] 0 [cmd 1]).withPlen 2).state) (fun t => t.runState) = none := by decide

/-- The placement of an instruction: the very next step after reset runs it. -/
theorem test_withFetchWord :
    see (step (State.reset.withFetchWord 72 0x060000000000000000)) (fun t => (t.x, t.pc)) = some ([1, 0, 0, 0], 1) ∧
    see (step (State.reset.withFetchWord 72 0x100000000000000000)) (fun t => (t.prog, t.pc)) =
      some ([(0, 0x040000000000000000)], 1) := by decide

/-! ## Witnesses: for every statement with hypotheses, concrete data that meet them, clause by clause -/

/-- `tgl 1; inc a; jnz c d`, RUNNING at index 0. -/
def sample : Record 32 := load [0x100000000200000000, incA, 0x0E0000000500000003] [7, 0, 2, -1] 0

/-- `inc a; jnz a 5; tgl a` with the command code `c` pending, IDLE at index 1. -/
def sampleIdle (q : List (HostAccess 32)) : Record 32 :=
  waiting .idle [incA, 0x0E0000000000000005, 0x120000000000000000] [7, 0, 2, -1] 1 q

theorem sample_inv : Inv sample :=
  ⟨by decide, by decide, by decide, by decide, by decide, by decide, by decide, by decide, by decide, by decide,
    by decide, by decide, by decide⟩

theorem witness_EncodeThenDecode :
    2 ≤ 32 ∧ 4 ≤ 2 ^ 32 ∧ (Instr.cpy (.imm (-2 ^ 31)) (.reg 3)).wellFormed 32 4 = true ∧
    3 ≤ 2 ^ 2 ∧ (Instr.jnz (.imm 1) (.reg 2)).wellFormed 2 3 = true := by decide

theorem witness_DecodeThenEncode : decode (W := 32) 4 0x0E0000000500000003 = .ok (.jnz (.reg 2) (.reg 3)) := by decide

theorem witness_DecoderChecks_kind_and_reserved :
    5 ≤ (kindField (W := 32) 0x140000000000000000).toNat ∧
    ((kindField (W := 32) 0x300000000000000000).toNat < 5 ∧ rsvField (W := 32) 0x300000000000000000 ≠ 0) ∧
    (rsvField (W := 32) 0x120000000100000000 = 0 ∧ (kindField (W := 32) 0x120000000100000000).toNat = 4 ∧
      bField (W := 32) 0x120000000100000000 ≠ 0) := by decide

theorem witness_DecoderChecks_registers :
    ((kindField (W := 32) 0x060000000800000000).toNat = 1 ∧ rsvField (W := 32) 0x060000000800000000 = 0 ∧
      bField (W := 32) 0x060000000800000000 = 0 ∧ aTag (W := 32) 0x060000000800000000 = true ∧ 4 ≤ (aVal (W := 32) 0x060000000800000000).toNat) ∧
    ((kindField (W := 32) 0x0C0000000100000004).toNat = 3 ∧ rsvField (W := 32) 0x0C0000000100000004 = 0 ∧
      aTag (W := 32) 0x0C0000000100000004 = false ∧ bTag (W := 32) 0x0C0000000100000004 = true ∧
      4 ≤ (bVal (W := 32) 0x0C0000000100000004).toNat) := by decide

theorem witness_DecoderChecks_pass :
    ((kindField (W := 32) 0x020000000700000003).toNat = 0 ∧ rsvField (W := 32) 0x020000000700000003 = 0 ∧
      ¬ 4 ≤ (aVal (W := 32) 0x020000000700000003).toNat ∧ ¬ 4 ≤ (bVal (W := 32) 0x020000000700000003).toNat) ∧
    ((kindField (W := 32) 0x060000000600000000).toNat = 1 ∧ bField (W := 32) 0x060000000600000000 = 0 ∧
      ¬ 4 ≤ (aVal (W := 32) 0x060000000600000000).toNat) ∧
    ((kindField (W := 32) 0x0A0000000200000000).toNat = 2 ∧ bField (W := 32) 0x0A0000000200000000 = 0) ∧
    ((kindField (W := 32) 0x0E0000000500000003).toNat = 3 ∧ ¬ 4 ≤ (bVal (W := 32) 0x0E0000000500000003).toNat) ∧
    ((kindField (W := 32) 0x120000000400000000).toNat = 4 ∧ bField (W := 32) 0x120000000400000000 = 0) := by decide

theorem witness_ToggledWord : decode (W := 32) 4 0x000000000A00000003 = .ok (.cpy (.imm 5) (.imm 3)) := by decide

theorem witness_operands_exist :
    2 ≤ 32 ∧ (Operand.reg 0).inFile sample.nreg = true ∧ (Operand.reg 3).inFile sample.nreg = true ∧
    (Operand.imm 7).inFile sample.nreg = true ∧ (Instr.cpy (.reg 3) (.imm 3)).registersExist sample.nreg = true ∧
    3 < sample.nreg := by decide

theorem witness_non_zero_register : 3 < sample.nreg ∧ sample.readX 3 ≠ 0 := by decide

theorem witness_jnz_both_outcomes :
    (Operand.reg 1).inFile sample.nreg = true ∧ val (.reg 1) sample = 0 ∧
    (Operand.reg 2).inFile sample.nreg = true ∧ val (.reg 2) sample ≠ 0 := by decide

/-- An `inc r4`, a `cpy r4 r9` and a `jnz a r4`, where NREG is 4. -/
theorem witness_MissingRegister :
    (Instr.inc (.reg 4)).registersExist sample.nreg = false ∧
    (Instr.cpy (.reg 4) (.reg 9)).registersExist sample.nreg = false ∧
    (Instr.jnz (.reg 0) (.reg 4)).registersExist sample.nreg = false ∧
    (Operand.reg 0).inFile sample.nreg = true := by decide

/-- The longest program there can be, at its last index. -/
theorem witness_WrappedPc :
    ∃ s : Record 32, s.plen ≤ 2 ^ (32 - 1) ∧ s.inProgram s.pc = true ∧ s.pc = 0x7FFFFFFF :=
  ⟨{ Record.resetAt 32 4 (2 ^ 16) with plen := 2 ^ 31, pc := 0x7FFFFFFF }, by decide⟩

theorem witness_SelfBranch :
    let s := load [0x0C0000000200000000] [0, 0, 0, 0] 0
    s.runState = .running ∧ s.port.pending = [] ∧ s.stopPending = false ∧ s.inProgram s.pc = true ∧
    decode s.nreg s.fetch = .ok (.jnz (.imm 1) (.imm 0)) ∧ val (.imm 1) s ≠ 0 ∧ val (.imm 0) s = 0 := by decide

theorem witness_Tgl_in_range :
    (Operand.reg 2).inFile sample.nreg = true ∧
    sample.inProgram (sample.pc + val (.reg 2) sample) = true ∧
    Kind.ofCode (kindField (sample.word (sample.pc + val (.reg 2) sample).toNat)) = some .jnz := by decide

/-- The targets PLEN and -1. -/
theorem witness_Tgl_out_of_range :
    (Operand.imm 3).inFile sample.nreg = true ∧ (Operand.reg 3).inFile sample.nreg = true ∧
    sample.inProgram (sample.pc + val (.imm 3) sample) = false ∧
    sample.inProgram (sample.pc + val (.reg 3) sample) = false := by decide

theorem witness_Tgl_no_kind :
    let s := load [0x100000000200000000, 0x160000000000000000] [0, 0, 0, 0] 0
    (Operand.imm 1).inFile s.nreg = true ∧ s.inProgram (s.pc + val (.imm 1) s) = true ∧ 5 ≤ (kindField (s.word (s.pc + val (.imm 1) s).toNat)).toNat := by
  decide

theorem witness_ToggleIsSeen_next :
    sample.runState = .running ∧ sample.port.pending = [] ∧ sample.stopPending = false ∧
    sample.inProgram sample.pc = true ∧ sample.inProgram (sample.pc + 1) = true ∧
    decode sample.nreg sample.fetch = .ok (.tgl (.imm 1)) ∧ val (.imm 1) sample = 1 ∧
    decode sample.nreg (sample.word (sample.pc + 1).toNat) = .ok (.inc (.reg 0)) := by decide

theorem witness_ToggleIsSeen_self :
    let s := load [0x100000000000000000, incA] [0, 0, 0, 0] 0
    s.runState = .running ∧ s.port.pending = [] ∧ s.stopPending = false ∧ s.inProgram s.pc = true ∧
    s.inProgram (s.pc + 1) = true ∧ decode s.nreg s.fetch = .ok (.tgl (.imm 0)) ∧ val (.imm 0) s = 0 := by decide

/-- A fault at decode: `inc r4`. -/
theorem witness_FaultEntry_decode :
    let s := load [0x060000000800000000] [0, 0, 0, 0] 0
    s.runState = .running ∧ CoreIsNext s [] ∧ s.inProgram s.pc = true ∧ Raises s (.badRegister .A) :=
  ⟨rfl, .inl ⟨rfl, rfl⟩, by decide, .inl (by decide)⟩

/-- A fault of the toggle engine: vector T11, with a host read after the CORE's step. -/
theorem witness_FaultEntry_toggle :
    let s := runningWith [0x100000000200000000, 0x160000000000000000] [0, 0, 0, 0] 0 [.tick, .readControl 0]
    s.runState = .running ∧ CoreIsNext s [.readControl 0] ∧ s.inProgram s.pc = true ∧
    Raises s (.toggleUnmapped 1) :=
  ⟨rfl, .inr rfl, by decide, .inr ⟨.imm 1, by decide⟩⟩

/-- A STEP of `inc r4` (from IDLE) and of the toggle of vector T11 (from HALTED). -/
theorem witness_StepCommandFaultEntry :
    (let s := waiting .idle [0x060000000800000000] [0, 0, 0, 0] 0 [cmd 3]
     s.runState = .idle ∧ s.port.pending = [.writeControl 6 3] ∧ commandCode (W := 32) 3 = 3 ∧
     s.programWritten = true ∧ s.inProgram s.pc = true ∧ Raises s (.badRegister .A)) ∧
    (let s := waiting .halted [0x100000000200000000, 0x160000000000000000] [0, 0, 0, 0] 0 [cmd 3]
     s.runState = .halted ∧ s.port.pending = [.writeControl 6 3] ∧
     s.programWritten = true ∧ s.inProgram s.pc = true ∧ Raises s (.toggleUnmapped 1)) :=
  ⟨⟨rfl, rfl, by decide, by decide, by decide, .inl (by decide)⟩,
    ⟨rfl, rfl, by decide, by decide, .inr ⟨.imm 1, by decide⟩⟩⟩

theorem witness_Faulted :
    (faultedWith []).runState = .faulted ∧
    (∀ a, (faultedWith [.writeX 3 7]).port.pending.head? = some a → a ≠ .reset ∧ PortIndexExists (faultedWith []) a) ∧
    (∀ a, (faultedWith [.writeP 65535 0]).port.pending.head? = some a →
      a ≠ .reset ∧ PortIndexExists (faultedWith []) a) := by
  refine ⟨rfl, ?_, ?_⟩
  · rintro a ⟨⟩; exact ⟨by simp, show 3 < 4 by decide⟩
  · rintro a ⟨⟩; exact ⟨by simp, show 65535 < 2 ^ 16 by decide⟩

/-- The host makes no more accesses, and the host leaves the CORE one step before it reads `pc`. -/
theorem witness_StepRuns :
    sample.runState = .running ∧ CoreIsNext sample [] ∧
    CoreIsNext (dropPending [.tick, .readControl 1] sample) [.readControl 1] ∧ sample.inProgram sample.pc = true ∧
    decode sample.nreg sample.fetch = .ok (.tgl (.imm 1)) :=
  ⟨rfl, .inl ⟨rfl, rfl⟩, .inr rfl, by decide, by decide⟩

/-- `inc a` at the last index, `inc a` with a STOP pending, and `inc a` with neither. -/
theorem witness_RunLoop :
    (∃ t : Record 32, exec (.inc (.reg 0)) (load [incA] [0, 0, 0, 0] 0).state = .next t.state ∧
      t.runState ≠ .faulted ∧ t.inProgram t.pc = false) ∧
    (∃ t : Record 32, exec (.inc (.reg 0)) ((load [incA, incA] [0, 0, 0, 0] 0).withStop true).state = .next t.state ∧
      t.runState ≠ .faulted ∧ t.inProgram t.pc = true ∧ t.stopPending = true) ∧
    (∃ t : Record 32, exec (.inc (.reg 0)) (load [incA, incA] [0, 0, 0, 0] 0).state = .next t.state ∧
      t.runState ≠ .faulted ∧ t.inProgram t.pc = true ∧ t.stopPending = false) :=
  ⟨⟨_, rfl, by decide⟩, ⟨_, rfl, by decide⟩, ⟨_, rfl, by decide⟩⟩

theorem witness_RunLoop_state :
    let s := (load [incA, incA] [0, 0, 0, 0] 0).withStop true
    s.runState = .running ∧ CoreIsNext s [] ∧ s.inProgram s.pc = true ∧
    decode s.nreg s.fetch = .ok (.inc (.reg 0)) :=
  ⟨rfl, .inl ⟨rfl, rfl⟩, by decide, by decide⟩

/-- While RUNNING: a `pc` just past the program, and one below it. -/
theorem witness_RunningOutside :
    (load [incA] [0, 0, 0, 0] 1).runState = .running ∧ CoreIsNext (load [incA] [0, 0, 0, 0] 1) [] ∧
    (load [incA] [0, 0, 0, 0] 1).inProgram 1 = false ∧ (load [incA] [0, 0, 0, 0] (-1)).inProgram (-1) = false :=
  ⟨rfl, .inl ⟨rfl, rfl⟩, by decide, by decide⟩

/-- RUN with PLEN 0, and RESUME and STEP at `pc` -1 and at PLEN. -/
theorem witness_HaltTest_commands :
    ((waiting .halted [] [0, 0, 0, 0] 3 [cmd 1]).runState = .halted ∧
      (waiting .halted [] [0, 0, 0, 0] 3 [cmd 1]).port.pending = [.writeControl 6 1] ∧ commandCode (W := 32) 1 = 1 ∧
      (waiting .halted [] [0, 0, 0, 0] 3 [cmd 1]).plen = 0) ∧
    ((waiting .idle [incA] [0, 0, 0, 0] (-1) [cmd 2]).runState = .idle ∧
      (waiting .idle [incA] [0, 0, 0, 0] (-1) [cmd 2]).port.pending = [.writeControl 6 2] ∧ commandCode (W := 32) 2 = 2 ∧
      (waiting .idle [incA] [0, 0, 0, 0] (-1) [cmd 2]).inProgram (-1) = false) ∧
    ((waiting .halted [incA] [0, 0, 0, 0] 1 [cmd 3]).runState = .halted ∧
      (waiting .halted [incA] [0, 0, 0, 0] 1 [cmd 3]).port.pending = [.writeControl 6 3] ∧ commandCode (W := 32) 3 = 3 ∧
      (waiting .halted [incA] [0, 0, 0, 0] 1 [cmd 3]).inProgram 1 = false) := by decide

/-- After a completed step: `inc a` at the last index. -/
theorem witness_HaltTest_after_step :
    let s := load [incA] [0, 0, 0, 0] 0
    ∃ t : Record 32, s.runState = .running ∧ CoreIsNext s [] ∧ s.inProgram s.pc = true ∧
      decode s.nreg s.fetch = .ok (.inc (.reg 0)) ∧ exec (.inc (.reg 0)) s.state = .next t.state ∧
      t.runState ≠ .faulted ∧ t.inProgram t.pc = false :=
  ⟨_, rfl, .inl ⟨rfl, rfl⟩, by decide, by decide, rfl, by decide, by decide⟩

theorem witness_RunAndResume :
    (sampleIdle [cmd 1]).runState = .idle ∧ (sampleIdle [cmd 1]).port.pending = [.writeControl 6 1] ∧
    (sampleIdle [cmd 1]).programWritten = true ∧ 0 < (sampleIdle [cmd 1]).plen ∧
    commandCode (W := 32) 1 = 1 ∧ (sampleIdle [cmd 2]).runState = .idle ∧
    (sampleIdle [cmd 2]).port.pending = [.writeControl 6 2] ∧ (sampleIdle [cmd 2]).programWritten = true ∧
    commandCode (W := 32) 2 = 2 ∧ (sampleIdle [cmd 2]).inProgram (sampleIdle [cmd 2]).pc = true := by decide

/-- STEP of a `jnz` that goes on in the program (not taken) and of one that leaves it (taken). -/
theorem witness_StepCommand :
    let s := sampleIdle [cmd 3]
    s.runState = .idle ∧ s.port.pending = [.writeControl 6 3] ∧ s.programWritten = true ∧
    s.inProgram s.pc = true ∧ decode s.nreg s.fetch = .ok (.jnz (.reg 0) (.imm 5)) := by decide

/-- STEP of an instruction that faults, of one that goes on and of one that leaves the program. -/
theorem witness_StepCommand_clauses :
    (∃ t : Record 32, exec (.tgl (.imm 1))
        (load [0x100000000200000000, 0x160000000000000000] [0, 0, 0, 0] 0).state = .next t.state ∧
      t.runState = .faulted) ∧
    (∃ t : Record 32, exec (.jnz (.reg 1) (.imm 5)) (sampleIdle []).state = .next t.state ∧ t.runState ≠ .faulted ∧
      t.inProgram t.pc = true) ∧
    (∃ t : Record 32, exec (.jnz (.reg 0) (.imm 5)) (sampleIdle []).state = .next t.state ∧ t.runState ≠ .faulted ∧
      t.inProgram t.pc = false) :=
  ⟨⟨_, rfl, by decide⟩, ⟨_, rfl, by decide⟩, ⟨_, rfl, by decide⟩⟩

/-- Codes 0 and 5, commands 1 and 3 while RUNNING and FAULTED, and a STOP in IDLE. -/
theorem witness_UnacceptedCommands :
    commandCode (W := 32) 0 = 0 ∧ 5 ≤ commandCode (W := 32) 5 ∧ 5 ≤ commandCode (W := 32) 7 ∧
    (runningWith [incA] [0, 0, 0, 0] 0 [cmd 1]).runState = .running ∧ commandCode (W := 32) 1 = 1 ∧
    (faultedWith [cmd 3]).runState = .faulted ∧ commandCode (W := 32) 3 = 3 ∧
    (sampleIdle [cmd 4]).runState ≠ .running ∧ commandCode (W := 32) 4 = 4 := by decide

theorem witness_Stop :
    let s := runningWith [incA, incA] [0, 0, 0, 0] 0 [cmd 4, .tick]
    s.runState = .running ∧ s.port.pending = [.writeControl 6 4, .tick] ∧ commandCode (W := 32) 4 = 4 ∧
    s.inProgram s.pc = true ∧ decode s.nreg s.fetch = .ok (.inc (.reg 0)) := by decide

theorem witness_Waiting :
    (sampleIdle []).runState ≠ .running ∧ CoreIsNext (sampleIdle []) [] ∧
    (faultedWith [.tick, cmd 1]).runState ≠ .running ∧ CoreIsNext (faultedWith [.tick, cmd 1]) [cmd 1] :=
  ⟨by decide, .inl ⟨rfl, rfl⟩, by decide, .inr rfl⟩

theorem witness_RefusedHostWrites :
    (runningWith [incA] [0, 0, 0, 0] 0 [.writeX 3 9]).runState = .running ∧
    3 < (runningWith [incA] [0, 0, 0, 0] 0 [.writeX 3 9]).nreg ∧
    (faultedWith [.writeP 65535 0]).runState = .faulted ∧ 65535 < (faultedWith [.writeP 65535 0]).pmax ∧
    (faultedWith [.writeControl 1 0]).port.pending = [.writeControl 1 0] ∧
    (runningWith [incA] [0, 0, 0, 0] 0 [.writeControl 2 0]).port.pending = [.writeControl 2 0] ∧
    (sampleIdle [.writeControl 7 1]).port.pending = [.writeControl 7 1] := by decide

theorem witness_HostWritesLand :
    (sampleIdle []).runState = .idle ∧ 3 < (sampleIdle [.writeX 3 9]).nreg ∧
    65535 < (sampleIdle [.writeP 65535 0]).pmax ∧
    (sampleIdle [.writeX 3 9]).port.pending = [.writeX 3 9] ∧
    (sampleIdle [.writeP 65535 0]).port.pending = [.writeP 65535 0] ∧
    (sampleIdle [.writeControl 1 5]).port.pending = [.writeControl 1 5] ∧
    (sampleIdle [.writeControl 2 65536]).port.pending = [.writeControl 2 65536] ∧
    (sampleIdle [.writeControl 2 65537]).port.pending = [.writeControl 2 65537] ∧
    (65536 : Word 32).toNat ≤ (sampleIdle []).pmax ∧ ¬ (65537 : Word 32).toNat ≤ (sampleIdle []).pmax := by decide

theorem witness_HostReads :
    (sampleIdle []).runState ≠ .running ∧
    (sampleIdle [.readControl 6]).port.pending = [.readControl 6] ∧
    (sampleIdle [.readX 3]).port.pending = [.readX 3] ∧ 3 < (sampleIdle []).nreg ∧
    (sampleIdle [.readP 65535]).port.pending = [.readP 65535] ∧ 65535 < (sampleIdle []).pmax ∧
    (sampleIdle []).plen < 2 ^ 32 ∧ (sampleIdle []).nreg < 2 ^ 32 ∧
    (sampleIdle []).pmax < 2 ^ 32 := by decide

/-- Reads of the last register, the last word and the first and last control register, with a STOP pending. -/
theorem witness_HostReadsWhileRunning :
    let s := fun a => (runningWith [incA, incA] [0, 0, 0, 0] 0 [a]).withStop true
    (s (.readX 3)).runState = .running ∧ (s (.readX 3)).port.boundaries ≠ [] ∧ 3 < (s (.readX 3)).nreg ∧
    (s (.readX 3)).port.pending = [.readX 3] ∧ (s (.readP 65535)).port.pending = [.readP 65535] ∧
    65535 < (s (.readP 65535)).pmax ∧ (s (.readControl 0)).port.pending = [.readControl 0] ∧
    (s (.readControl 6)).port.pending = [.readControl 6] ∧ (s (.readControl 2)).plen < 2 ^ 32 ∧
    (s (.readControl 4)).nreg < 2 ^ 32 ∧ (s (.readControl 5)).pmax < 2 ^ 32 := by decide

theorem witness_Reset : (faultedWith [.reset, cmd 1]).port.pending = .reset :: [cmd 1] := by decide

/-- RUN, RESUME and STEP over a program of three words whose last was not written. -/
theorem witness_UnwrittenLaunch :
    let s := fun c => (sampleIdle [cmd c]).withPlen 4
    (s 1).runState = .idle ∧ 3 < (s 1).plen ∧ (s 1).prog.find? 3 = none ∧
    (s 1).port.pending = [.writeControl 6 1] ∧ (s 2).port.pending = [.writeControl 6 2] ∧
    (s 3).port.pending = [.writeControl 6 3] ∧ (s 2).inProgram (s 2).pc = true := by decide

/-- The smallest and the reference parameters, and the largest at W = 2. -/
theorem witness_legal :
    Config.legal 2 1 1 = true ∧ Config.legal 2 3 2 = true ∧ Config.legal 32 4 (2 ^ 16) = true := by decide

theorem witness_EveryStepKeepsTheInvariant : ∃ t : State, Inv sample.state.record ∧ step sample.state = .next t :=
  ⟨_, sample_inv, rfl⟩

theorem witness_EveryStepKeepsTheFaultEvidence :
    ∃ t : State, (faultedWith [.writeX 0 0]).runState = .faulted ∧
      FaultEvidence (faultedWith [.writeX 0 0]).state.record ∧ step (faultedWith [.writeX 0 0]).state = .next t :=
  ⟨_, rfl, fun _ => ⟨by decide, .illegalKind 5, .inl (by decide), by decide, by decide⟩, rfl⟩

/-- The program of `sample` as variants. -/
theorem witness_Represents :
    sample.runState = .running ∧ CoreIsNext sample [] ∧ sample.port.pending = [] ∧ sample.stopPending = false ∧
    Inv sample ∧
    Source.Represents ⟨[7, 0, 2, -1], 0, [.tgl (.imm 1), .inc (.reg 0), .jnz (.reg 2) (.reg 3)]⟩ sample := by
  refine ⟨rfl, .inl ⟨rfl, rfl⟩, rfl, rfl, sample_inv, rfl, rfl, rfl, ?_⟩
  intro k i h
  match k with
  | 0 => cases h; decide
  | 1 => cases h; decide
  | 2 => cases h; decide
  | k + 3 => simp at h

/-- Two programs of two words that differ in the word after them. -/
theorem witness_WordsBeyond :
    let s := (load [incA, incA, incA] [1, 0, 0, 0] 0).withPlen 2
    let s' := (load [incA, incA, 0x140000000000000000] [1, 0, 0, 0] 0).withPlen 2
    s.port.pending = [] ∧ AgreeOnTheRun s s' ∧ s'.word 2 ≠ s.word 2 := by
  refine ⟨rfl, ⟨rfl, rfl, rfl, rfl, rfl, rfl, rfl, rfl, ?_⟩, by decide⟩
  intro k hk
  match k, hk with
  | 0, _ => rfl
  | 1, _ => rfl

end Sys2Proof.Tests
end

section
/-!
PROOFS. One step of the machine: the effects it can have, and that none changes the parameters (10_state.md,
40_step.md).
-/

namespace Sys2Proof.Machine

variable {W : Nat}

/-! ## What one step of the machine can do -/

/-- Everything one step of the machine can make of a record whose next access is used up: a host access with no
effect, a host read, reset, a host write in IDLE or HALTED, a command, or one turn of the run loop (R26, R27, R87 to
R91, R131). -/
inductive StepEffect (s : Record W) : Record W → Prop
  | unchanged : StepEffect s s
  | answered (r : HostReply W) : StepEffect s (answer r s)
  | reset : StepEffect s (resetCore s)
  | wrotePc (hw : hostMayWrite s = true) (v : Word W) : StepEffect s (s.withPc v)
  | wrotePlen (hw : hostMayWrite s = true) (n : Nat) (hn : n ≤ s.pmax) : StepEffect s (s.withPlen n)
  | wroteX (hw : hostMayWrite s = true) (i : Nat) (v : Word W) : StepEffect s (s.writeX i v)
  | wroteP (hw : hostMayWrite s = true) (k : Nat) (w : RawWord W) (hk : k < s.pmax) :
      StepEffect s (s.withProg (s.prog.write k w))
  | stopLatched (hr : s.runState = .running) : StepEffect s (s.withStop true)
  | halted (hf : s.runState ≠ .faulted) (pc : Word W) (hin : s.inProgram pc = false) :
      StepEffect s ((s.withPc pc).endRun .halted)
  | launched (hw : hostMayWrite s = true) (pc : Word W) (hin : s.inProgram pc = true)
      (hwr : s.programWritten = true) : StepEffect s (s.withPc pc).beginRun
  | ran (hr : s.runState = .running) (hin : s.inProgram s.pc = true) (t : Record W)
      (ht : performStep s = .next t.state) : StepEffect s (finishRunStep t)
  | singleStepped (hw : hostMayWrite s = true) (hin : s.inProgram s.pc = true) (hwr : s.programWritten = true)
      (t : Record W) (ht : performStep s = .next t.state) : StepEffect s (finishSingleStep t)

/-- If the operation answers a next state, it is one of the same width whose record satisfies `P`. -/
def Lands (P : Record W → Prop) (r : Result) : Prop := ∀ t, r = .next t → ∃ u : Record W, t = u.state ∧ P u

variable {P : Record W → Prop}

theorem lands_next {u : Record W} (h : P u) : Lands P (.next u.state) := by
  rintro _ ⟨⟩
  exact ⟨u, rfl, h⟩

theorem lands_refused (r : Refusal) : Lands P (.refused r) := fun _ h => nomatch h

theorem lands_ite {c : Prop} [Decidable c] {r r' : Result} (h : c → Lands P r) (h' : ¬ c → Lands P r') :
    Lands P (if c then r else r') := by
  split
  · exact h ‹_›
  · exact h' ‹_›

variable (s : Record W)

theorem not_faulted_of_hostMayWrite {s : Record W} (hw : hostMayWrite s = true) : s.runState ≠ .faulted := by
  rcases (hostMayWrite_iff s).1 hw with h | h <;> simp [h]

theorem tick_lands : Lands (StepEffect s) (tick s) := by
  by_cases hr : s.runState = .running
  · rw [tick_running hr]
    cases hin : s.inProgram s.pc with
    | false =>
      rw [runStep_out hin]
      exact lands_next (.halted (by simp [hr]) s.pc hin)
    | true =>
      obtain ⟨t, ht, hrun, -⟩ := runStep_inProgram hin
      rw [hrun]
      exact lands_next (.ran hr hin t ht)
  · rw [tick_waiting hr]
    exact lands_next .unchanged

/-- R88, R89: RUN is RESUME from index 0, so one lemma covers both. -/
theorem resume_withPc_lands {s : Record W} (hw : hostMayWrite s = true) (pc : Word W) :
    Lands (StepEffect s) (resume (s.withPc pc)) :=
  lands_ite
    (fun hout => lands_next (.halted (not_faulted_of_hostMayWrite hw) pc (Bool.eq_false_iff.2 hout)))
    fun hin => lands_ite (fun _ => lands_refused _)
      fun hwr => lands_next (.launched hw pc (not_not.1 hin) (not_not.1 hwr))

theorem singleStep_lands {s : Record W} (hw : hostMayWrite s = true) : Lands (StepEffect s) (singleStep s) := by
  refine lands_ite
    (fun hout => lands_next (.halted (not_faulted_of_hostMayWrite hw) s.pc (Bool.eq_false_iff.2 hout)))
    fun hin => lands_ite (fun _ => lands_refused _) fun hwr => ?_
  obtain ⟨t, ht, -⟩ := performStep_effect s
  rw [ht, onRecord_next]
  exact lands_next (.singleStepped hw (not_not.1 hin) (not_not.1 hwr) t ht)

theorem command_lands (c : BitVec 3) : Lands (StepEffect s) (command c s) := by
  unfold command
  split
  · exact lands_ite (fun hw => resume_withPc_lands hw 0) fun _ => lands_next .unchanged
  · exact lands_ite (fun hw => resume_withPc_lands hw s.pc) fun _ => lands_next .unchanged
  · exact lands_ite singleStep_lands fun _ => lands_next .unchanged
  · exact lands_ite (fun hr => lands_next (.stopLatched hr)) fun _ => lands_next .unchanged
  · exact lands_next .unchanged

theorem writePlen_effect {s : Record W} (hw : hostMayWrite s = true) (v : Word W) : StepEffect s (writePlen v s) := by
  unfold writePlen
  split
  · exact .wrotePlen hw _ ‹_›
  · exact .unchanged

theorem hostWriteControl_lands (no : Nat) (v : Word W) : Lands (StepEffect s) (hostWriteControl no v s) := by
  unfold hostWriteControl
  split
  · exact lands_ite (fun hw => lands_next (.wrotePc hw v)) fun _ => lands_next .unchanged
  · exact lands_ite (fun hw => lands_next (writePlen_effect hw v)) fun _ => lands_next .unchanged
  · exact command_lands s _
  · exact lands_next .unchanged

theorem hostAccess_lands (a : HostAccess W) : Lands (StepEffect s) (hostAccess a s) := by
  cases a with
  | tick => exact tick_lands s
  | reset => exact lands_next .reset
  | readControl no => exact lands_next (.answered _)
  | writeControl no v => exact hostWriteControl_lands s no v
  | readX i => exact lands_ite (fun _ => lands_next (.answered _)) fun _ => lands_refused _
  | readP k => exact lands_ite (fun _ => lands_next (.answered _)) fun _ => lands_refused _
  | writeX i v =>
    exact lands_ite (fun _ => lands_ite (fun hw => lands_next (.wroteX hw i v)) fun _ => lands_next .unchanged)
      fun _ => lands_refused _
  | writeP k w =>
    exact lands_ite (fun hk => lands_ite (fun hw => lands_next (.wroteP hw k w hk)) fun _ => lands_next .unchanged)
      fun _ => lands_refused _

/-- One step of the machine uses up the host's next entry, if there is one, and has one of the effects listed. -/
theorem step_effect {s t : State} (h : step s = .next t) :
    ∃ u : Record s.W, t = u.state ∧ StepEffect (dropPending s.record.port.pending.tail s.record) u := by
  cases hp : s.record.port.pending with
  | nil =>
    rw [step_noAccess hp] at h
    rw [List.tail_nil, dropPending_self hp]
    exact tick_lands _ t h
  | cons a rest =>
    rw [step_access hp] at h
    exact hostAccess_lands _ a t h

/-! ## What a completed instruction keeps -/

theorem effect_of_performStep {s t : Record W} (h : performStep s = .next t.state) : Effect s t := by
  obtain ⟨u, hu, he⟩ := performStep_effect s
  rw [hu] at h
  cases h
  exact he

/-- The program store of `t` is that of `s` with at most one word written, at an index of the program (R57, R107). -/
def WritesWithinProgram (s t : Record W) : Prop :=
  t.prog = s.prog ∨ ∃ k w, k < s.plen ∧ t.prog = s.prog.write k w

/-- An instruction raises a fault, or it keeps the control fields and writes at most one word of the program. -/
theorem Effect.raised_or_completed {s t : Record W} (h : Effect s t) :
    (∃ f, t = raise f s) ∨ SameControl s t ∧ WritesWithinProgram s t := by
  cases h with
  | raised f => exact .inl ⟨f, rfl⟩
  | wrote x hx => exact .inr ⟨⟨rfl, rfl, rfl, rfl, rfl, hx, rfl, rfl⟩, Or.inl rfl⟩
  | branched v => exact .inr ⟨⟨rfl, rfl, rfl, rfl, rfl, rfl, rfl, rfl⟩, Or.inl rfl⟩
  | toggled k c hk => exact .inr ⟨⟨rfl, rfl, rfl, rfl, rfl, rfl, rfl, rfl⟩, Or.inr ⟨k, _, hk, rfl⟩⟩

/-- What the run loop does after an instruction keeps the data and the reset count. -/
theorem finishRunStep_sameData (t : Record W) :
    SameData t (finishRunStep t) ∧ (finishRunStep t).port.epoch = t.port.epoch := by
  unfold finishRunStep
  split_ifs <;> exact ⟨⟨rfl, rfl, rfl, rfl, rfl, rfl, rfl⟩, rfl⟩

theorem finishSingleStep_sameData (t : Record W) : SameData t (finishSingleStep t) := by
  unfold finishSingleStep
  split_ifs <;> exact ⟨rfl, rfl, rfl, rfl, rfl, rfl, rfl⟩

/-! ## The parameters -/

theorem Effect.keeps_parameters {s t : Record W} (h : Effect s t) : t.nreg = s.nreg ∧ t.pmax = s.pmax := by
  rcases h.raised_or_completed with ⟨f, rfl⟩ | ⟨⟨-, -, -, -, -, hn, hp, -⟩, -⟩
  · exact ⟨rfl, rfl⟩
  · exact ⟨hn, hp⟩

theorem parameters_of_sameData {s t : Record W} (h : SameData s t) : t.nreg = s.nreg ∧ t.pmax = s.pmax := by
  obtain ⟨hx, -, -, -, -, -, hp⟩ := h
  exact ⟨congrArg List.length hx, hp⟩

theorem StepEffect.keeps_parameters {s t : Record W} (h : StepEffect s t) : t.nreg = s.nreg ∧ t.pmax = s.pmax := by
  cases h with
  | wroteX hw i v => exact ⟨writeX_nreg s i v, rfl⟩
  | reset => exact ⟨resetCore_nreg s, rfl⟩
  | ran hr hin u hu =>
    obtain ⟨hn, hp⟩ := parameters_of_sameData (finishRunStep_sameData u).1
    obtain ⟨hn', hp'⟩ := (effect_of_performStep hu).keeps_parameters
    exact ⟨hn.trans hn', hp.trans hp'⟩
  | singleStepped hw hin hwr u hu =>
    obtain ⟨hn, hp⟩ := parameters_of_sameData (finishSingleStep_sameData u)
    obtain ⟨hn', hp'⟩ := (effect_of_performStep hu).keeps_parameters
    exact ⟨hn.trans hn', hp.trans hp'⟩
  | unchanged | answered | wrotePc | wrotePlen | wroteP | stopLatched | halted | launched => exact ⟨rfl, rfl⟩

/-- Settles O52: every effect a step can have keeps the number of registers and the capacity, and its width. -/
theorem noStepChangesTheParameters : Obligations.NoStepChangesTheParameters := by
  intro s t h
  obtain ⟨u, rfl, hu⟩ := step_effect h
  exact ⟨rfl, hu.keeps_parameters⟩

end Sys2Proof.Machine
end

section
/-!
PROOFS. The invariant: what of it each shared operation keeps, and from that every step.
-/

namespace Sys2Proof

open Machine

variable {W : Nat} {s t : Record W}

/-! ## The invariant in two stages -/

/-- The part of `Inv` about the parameters and the program store, which no status field enters. -/
structure StoreInv (s : Record W) : Prop where
  legal : Config.legal W s.nreg s.pmax = true
  plen_le : s.plen ≤ s.pmax
  prog_wf : s.prog.wf
  prog_bound : ∀ p ∈ s.prog, p.1 < s.pmax

/-- What `Inv` says of a machine in IDLE or HALTED. -/
structure AtRest (s : Record W) : Prop extends StoreInv s where
  waits : s.runState = .idle ∨ s.runState = .halted
  cause : s.cause = 0
  finfo : s.finfo = 0
  stop : s.stopPending = false
  boundaries : s.port.boundaries = []

theorem Inv.storeInv (h : Inv s) : StoreInv s := ⟨h.legal, h.plen_le, h.prog_wf, h.prog_bound⟩

/-- R24, R25: outside FAULTED there is no cause and no information. -/
theorem Inv.no_fault (h : Inv s) (hf : s.runState ≠ .faulted) : s.cause = 0 ∧ s.finfo = 0 := by
  have hc : s.cause = 0 := not_not.1 (mt h.faulted_iff.2 hf)
  exact ⟨hc, h.finfo_zero hc⟩

theorem AtRest.ne_running (h : AtRest s) : s.runState ≠ .running := by
  rcases h.waits with hr | hr <;> simp [hr]

theorem AtRest.ne_faulted (h : AtRest s) : s.runState ≠ .faulted := by
  rcases h.waits with hr | hr <;> simp [hr]

theorem Inv.atRest (h : Inv s) (hw : hostMayWrite s = true) : AtRest s := by
  have waits := (hostMayWrite_iff s).1 hw
  have hr : s.runState ≠ .running := by rcases waits with hr | hr <;> simp [hr]
  obtain ⟨hc, hi⟩ := h.no_fault (not_faulted_of_hostMayWrite hw)
  exact ⟨h.storeInv, waits, hc, hi, Bool.eq_false_iff.2 (mt h.stop_running hr), h.boundaries_running hr⟩

theorem AtRest.inv (h : AtRest s) : Inv s where
  legal := h.legal
  plen_le := h.plen_le
  prog_wf := h.prog_wf
  prog_bound := h.prog_bound
  faulted_iff := iff_of_false h.ne_faulted (not_not.2 h.cause)
  cause_le := by simp [h.cause]
  finfo_zero _ := h.finfo
  stop_running hs := by simp [h.stop] at hs
  running_pc hr := absurd hr h.ne_running
  running_written hr := absurd hr h.ne_running
  running_boundary hr := absurd hr h.ne_running
  boundaries_running _ := h.boundaries
  boundary_shape := by simp [h.boundaries]

/-! ## The store's part -/

theorem StoreInv.congr (h : StoreInv s) (hn : t.nreg = s.nreg) (hm : t.pmax = s.pmax) (hl : t.plen = s.plen)
    (hp : t.prog = s.prog) : StoreInv t :=
  ⟨by rw [hn, hm]; exact h.legal, by rw [hl, hm]; exact h.plen_le, by rw [hp]; exact h.prog_wf,
    by rw [hp, hm]; exact h.prog_bound⟩

theorem StoreInv.of_effect (h : StoreInv s) (he : Effect s t) : StoreInv t := by
  rcases he.raised_or_completed with ⟨f, rfl⟩ | ⟨⟨hl, -, -, -, -, hn, hm, -⟩, hp | ⟨k, w, hk, hp⟩⟩
  · exact h.congr rfl rfl rfl rfl
  · exact h.congr hn hm hl hp
  · refine ⟨by rw [hn, hm]; exact h.legal, by rw [hl, hm]; exact h.plen_le, ?_, ?_⟩
    · rw [hp]
      exact Memory.write_wf h.prog_wf
    · rw [hp, hm]
      exact Memory.write_bound (hk.trans_le h.plen_le) h.prog_bound

/-! ## Entering and leaving a run -/

/-- R79, R90, R91: a machine without a fault that leaves RUNNING, or was not in it, is at rest. -/
theorem StoreInv.atRest_endRun (h : StoreInv s) (hc : s.cause = 0) (hi : s.finfo = 0) {r : RunState}
    (hr : r = .idle ∨ r = .halted) : AtRest (s.endRun r) :=
  ⟨h.congr rfl rfl rfl rfl, hr, hc, hi, rfl, rfl⟩

theorem causeCode_range (f : CoreFault W) : causeCode f ≠ 0 ∧ (causeCode f).toNat ≤ 4 := by
  cases f <;> simp [causeCode]

/-- R118: fault entry. -/
theorem StoreInv.inv_raise (h : StoreInv s) (f : CoreFault W) : Inv (raise f s) where
  legal := h.legal
  plen_le := h.plen_le
  prog_wf := h.prog_wf
  prog_bound := h.prog_bound
  faulted_iff := iff_of_true rfl (causeCode_range f).1
  cause_le := (causeCode_range f).2
  finfo_zero hc := absurd hc (causeCode_range f).1
  stop_running := by simp
  running_pc := by simp
  running_written := by simp
  running_boundary := by simp
  boundaries_running _ := rfl
  boundary_shape := by simp

/-- R88, R89: the start of a run. -/
theorem AtRest.inv_beginRun (h : AtRest s) (hin : s.inProgram s.pc = true) (hw : s.programWritten = true) :
    Inv s.beginRun where
  legal := h.legal
  plen_le := h.plen_le
  prog_wf := h.prog_wf
  prog_bound := h.prog_bound
  faulted_iff := iff_of_false (by simp) (not_not.2 h.cause)
  cause_le := h.inv.cause_le
  finfo_zero _ := h.finfo
  stop_running _ := rfl
  running_pc _ := hin
  running_written _ := hw
  running_boundary _ := rfl
  boundaries_running hr := absurd rfl hr
  boundary_shape b hb := by
    obtain rfl : b = s.snapshot := by simpa using hb
    exact ⟨rfl, hin, rfl⟩

/-! ## What a completed instruction of a run keeps -/

/-- R134: writing an index of a program that was written keeps the list of written indices. -/
theorem indices_of_completed (hwf : s.prog.wf) (hw : s.programWritten = true)
    (hp : WritesWithinProgram s t) :
    t.prog.map Prod.fst = s.prog.map Prod.fst := by
  rcases hp with hp | ⟨k, w, hk, hp⟩
  · rw [hp]
  · rw [hp]
    exact Memory.write_indices hwf ((programWritten_iff s).1 hw k hk)

theorem programWritten_of_completed (hl : t.plen = s.plen) (hw : s.programWritten = true)
    (hp : WritesWithinProgram s t) : t.programWritten = true := by
  rw [programWritten_iff] at hw ⊢
  rw [hl]
  intro j hj
  rcases hp with hp | ⟨k, w, -, hp⟩
  · rw [hp]
    exact hw j hj
  · rw [hp]
    by_cases hjk : j = k
    · subst hjk
      rw [Memory.find?_write_same]
      rfl
    · rw [Memory.find?_write_other hjk]
      exact hw j hj

/-- R88: a run that goes on after a completed instruction has one boundary more, and the earlier ones keep their shape. -/
theorem Inv.inv_markBoundary (h : Inv s) (hr : s.runState = .running) (hst : StoreInv t) (hc : SameControl s t)
    (hp : WritesWithinProgram s t) (hin : t.inProgram t.pc = true) :
    Inv t.markBoundary := by
  obtain ⟨hl, hrun, hcause, hfinfo, -, hn, -, hport⟩ := hc
  have hrt : t.runState = .running := hrun.trans hr
  have hind := indices_of_completed h.prog_wf (h.running_written hr) hp
  obtain ⟨hs0, hi0⟩ := h.no_fault (by simp [hr])
  exact {
    legal := hst.legal
    plen_le := hst.plen_le
    prog_wf := hst.prog_wf
    prog_bound := hst.prog_bound
    faulted_iff := iff_of_false (by simp [hrt]) (not_not.2 (hcause.trans hs0))
    cause_le := by simpa [hcause] using h.cause_le
    finfo_zero := fun _ => hfinfo.trans hi0
    stop_running := fun _ => hrt
    running_pc := fun _ => hin
    running_written := fun _ => programWritten_of_completed hl (h.running_written hr) hp
    running_boundary := fun _ => rfl
    boundaries_running := fun hne => absurd hrt hne
    boundary_shape := by
      intro b hb
      rcases List.mem_cons.1 hb with rfl | hb
      · exact ⟨rfl, hin, rfl⟩
      · rw [hport] at hb
        obtain ⟨hx, hpc, hprog⟩ := h.boundary_shape b hb
        exact ⟨hx.trans hn.symm, (inProgram_congr hl b.pc).trans hpc, hprog.trans hind.symm⟩ }

/-- R88: one turn of the run loop. -/
theorem Inv.inv_finishRunStep (h : Inv s) (hr : s.runState = .running) (he : Effect s t) : Inv (finishRunStep t) := by
  have hst := h.storeInv.of_effect he
  rcases he.raised_or_completed with ⟨f, rfl⟩ | ⟨hc, hp⟩
  · rw [finishRunStep_faulted rfl]
    exact h.storeInv.inv_raise f
  · have ⟨_, hrun, hcause, hfinfo, _⟩ := hc
    obtain ⟨hc0, hi0⟩ := h.no_fault (by simp [hr])
    have hnf : t.runState ≠ .faulted := by simp [hrun, hr]
    have leave {r : RunState} := hst.atRest_endRun (hcause.trans hc0) (hfinfo.trans hi0) (r := r)
    cases hin : t.inProgram t.pc with
    | false =>
      rw [finishRunStep_halt hnf hin]
      exact (leave (.inr rfl)).inv
    | true =>
      cases hs : t.stopPending with
      | true =>
        rw [finishRunStep_stop hnf hin hs]
        exact (leave (.inl rfl)).inv
      | false =>
        rw [finishRunStep_go hnf hin hs]
        exact h.inv_markBoundary hr hst hc hp hin

/-- R90: the instruction of a STEP command. -/
theorem AtRest.inv_finishSingleStep (h : AtRest s) (he : Effect s t) : Inv (finishSingleStep t) := by
  have hst := h.toStoreInv.of_effect he
  rcases he.raised_or_completed with ⟨f, rfl⟩ | ⟨⟨-, hrun, hcause, hfinfo, -⟩, -⟩
  · rw [finishSingleStep_faulted rfl]
    exact h.toStoreInv.inv_raise f
  · have hnf : t.runState ≠ .faulted := hrun ▸ h.ne_faulted
    have leave {r : RunState} := hst.atRest_endRun (hcause.trans h.cause) (hfinfo.trans h.finfo) (r := r)
    unfold finishSingleStep
    rw [if_neg hnf]
    split
    · exact (leave (.inl rfl)).inv
    · exact (leave (.inr rfl)).inv

/-! ## The host's side and reset -/

theorem Inv.inv_dropPending (h : Inv s) (rest : List (HostAccess W)) : Inv (dropPending rest s) := { h with }

theorem Inv.inv_answer (h : Inv s) (r : HostReply W) : Inv (answer r s) := { h with }

theorem atRest_resetAt {nreg pmax : Nat} (h : Config.legal W nreg pmax = true) :
    AtRest (Record.resetAt W nreg pmax) where
  legal := by simpa [Record.resetAt, Record.nreg] using h
  plen_le := Nat.zero_le _
  prog_wf := Memory.wf_nil
  prog_bound := by simp [Record.resetAt]
  waits := .inl rfl
  cause := rfl
  finfo := rfl
  stop := rfl
  boundaries := rfl

/-- R131: reset leaves a machine at rest, from every state with legal parameters. -/
theorem Inv.atRest_resetCore (h : Inv s) : AtRest (resetCore s) :=
  { atRest_resetAt h.legal with }

/-! ## Every step -/

/-- The invariant, effect by effect of a step. -/
theorem Inv.of_stepEffect (h : Inv s) (he : StepEffect s t) : Inv t := by
  cases he with
  | unchanged => exact h
  | answered r => exact h.inv_answer r
  | reset => exact h.atRest_resetCore.inv
  | wrotePc hw v => exact AtRest.inv { h.atRest hw with }
  | wrotePlen hw n hn => exact AtRest.inv { h.atRest hw with plen_le := hn }
  | wroteX hw i v => exact AtRest.inv { h.atRest hw with legal := by rw [writeX_nreg]; exact h.legal }
  | wroteP hw k w hk =>
    exact AtRest.inv { h.atRest hw with
      prog_wf := Memory.write_wf h.prog_wf
      prog_bound := Memory.write_bound hk h.prog_bound }
  | stopLatched hr => exact { h with stop_running := fun _ => hr }
  | halted hf pc hin =>
    obtain ⟨hc, hi⟩ := h.no_fault hf
    have hst : StoreInv (s.withPc pc) := h.storeInv.congr rfl rfl rfl rfl
    exact (hst.atRest_endRun hc hi (.inr rfl)).inv
  | launched hw pc hin hwr =>
    have hrest : AtRest (s.withPc pc) := { h.atRest hw with }
    exact hrest.inv_beginRun hin hwr
  | ran hr hin u hu => exact h.inv_finishRunStep hr (effect_of_performStep hu)
  | singleStepped hw hin hwr u hu => exact (h.atRest hw).inv_finishSingleStep (effect_of_performStep hu)

/-- Settles O45: by the effects a step can have; an instruction of the run loop is the case that needs the invariant's
facts about the run. -/
theorem everyStepKeepsTheInvariant : Obligations.EveryStepKeepsTheInvariant := by
  intro s t h hstep
  obtain ⟨u, rfl, hu⟩ := step_effect hstep
  exact (h.inv_dropPending _).of_stepEffect hu

/-- Settles O44: the reset state is at rest with no fault, so the evidence of a fault is not asked for. -/
theorem resetSatisfiesTheInvariant : Obligations.ResetSatisfiesTheInvariant := by
  refine ⟨fun W nreg pmax h => ?_, rfl⟩
  have hrest := atRest_resetAt h
  exact ⟨hrest.inv, fun hf => absurd hf hrest.ne_faulted, List.length_replicate, rfl⟩

end Sys2Proof
end

section
/-!
PROOFS. The CORE against the source's machine: the word of an instruction under decoding and toggling, then one
instruction, then one turn of the run loop.
-/

namespace Sys2Proof

open Machine

variable {W : Nat}

/-! ## The word of an instruction (30_encoding.md) -/

/-- R68, R73: a word assembled from a two-operand kind and two operands that fit decodes to their instruction. -/
theorem decode_assemble_two {nreg : Nat} (hW : 1 ≤ W) (hn : nreg ≤ 2 ^ W) {k : Kind} (hk : k.oneOperand = false)
    {a b : Operand} (ha : a.fits W nreg = true) (hb : b.fits W nreg = true) :
    decode nreg (assemble 0 k.code a.tag (a.field W) (b.pack W)) = .ok (k.instr a b) := by
  have hA : operandA (assemble 0 k.code a.tag (a.field W) (b.pack W)) = a := by
    rw [operandA_assemble, operandOf_tag_field hW hn ha]
  have hB : operandB (assemble 0 k.code a.tag (a.field W) (b.pack W)) = b := by
    rw [operandB_assemble, operandOf_tag_field hW hn hb]
  have h := decode_of_checks (nreg := nreg) (w := assemble 0 k.code a.tag (a.field W) (b.pack W)) (k := k)
    (by simp) (by simp) (by simp [hk]) (by rw [hA]; exact inFile_of_fits ha)
    (fun _ => by rw [hB]; exact inFile_of_fits hb)
  rwa [hA, hB] at h

/-- R62, R68, R73: the same of a one-operand kind with operand B zero; what the word's operand B reads as is not used. -/
theorem decode_assemble_one {nreg : Nat} (hW : 1 ≤ W) (hn : nreg ≤ 2 ^ W) {k : Kind} (hk : k.oneOperand = true)
    {a : Operand} (ha : a.fits W nreg = true) :
    ∃ b, decode nreg (assemble 0 k.code a.tag (a.field W) (noOperand W)) = .ok (k.instr a b) := by
  have hA : operandA (assemble 0 k.code a.tag (a.field W) (noOperand W)) = a := by
    rw [operandA_assemble, operandOf_tag_field hW hn ha]
  have h := decode_of_checks (nreg := nreg) (w := assemble 0 k.code a.tag (a.field W) (noOperand W)) (k := k)
    (by simp) (by simp) (fun _ => bField_assemble_noOperand ..) (by rw [hA]; exact inFile_of_fits ha)
    (by simp [hk])
  rw [hA] at h
  exact ⟨_, h⟩

/-- R75: decoding the word of a well-formed instruction gives the instruction back. -/
theorem decode_encode {nreg : Nat} (hW : 1 ≤ W) (hn : nreg ≤ 2 ^ W) {i : Instr} (h : i.wellFormed W nreg = true) :
    decode nreg (encode W i) = .ok i := by
  cases i with
  | cpy a b =>
    obtain ⟨ha, hb⟩ := Bool.and_eq_true_iff.1 h
    exact decode_assemble_two hW hn (k := .cpy) rfl ha hb
  | jnz a b =>
    obtain ⟨ha, hb⟩ := Bool.and_eq_true_iff.1 h
    exact decode_assemble_two hW hn (k := .jnz) rfl ha hb
  | inc a =>
    obtain ⟨_, hdec⟩ := decode_assemble_one hW hn (k := .inc) rfl h
    exact hdec
  | dec a =>
    obtain ⟨_, hdec⟩ := decode_assemble_one hW hn (k := .dec) rfl h
    exact hdec
  | tgl a =>
    obtain ⟨_, hdec⟩ := decode_assemble_one hW hn (k := .tgl) rfl h
    exact hdec

theorem setKindField_assemble (rsv kind kind' : BitVec 3) (t : BitVec 1) (v : Word W) (b : BitVec (1 + W)) :
    setKindField (assemble rsv kind t v b) kind' = assemble rsv kind' t v b :=
  word_ext (by simp) (by simp) (by simp) (by simp) (by simp)

/-- R107, R112: toggling the KIND of an instruction's word gives the word of the toggled variant. -/
theorem setKindField_encode (i : Instr) :
    setKindField (encode W i) (toggle i.kind).code = encode W (Source.toggled i) := by
  cases i <;> exact setKindField_assemble ..

theorem kindField_encode (i : Instr) : kindField (encode W i) = i.kind.code := by
  cases i <;> exact kindField_assemble ..

/-- R112: toggling keeps the operands, so it keeps well-formedness. -/
theorem toggled_wellFormed {nreg : Nat} (i : Instr) :
    (Source.toggled i).wellFormed W nreg = i.wellFormed W nreg := by
  cases i <;> rfl

/-! ## The source's registers (R84, R86) -/

theorem val_eq_value (op : Operand) (s : Record W) : val op s = Source.value s.x op := by cases op <;> rfl

theorem writeIfReg_eq_put (op : Operand) (v : Word W) (s : Record W) :
    writeIfReg op v s = s.withX (Source.put s.x op v) := by
  cases op <;> rfl

theorem updateIfReg_eq_put (op : Operand) (f : Word W → Word W) (s : Record W) :
    updateIfReg op f s = s.withX (Source.put s.x op (f (Source.value s.x op))) := by
  cases op <;> rfl

theorem length_put (x : List (Word W)) (op : Operand) (v : Word W) : (Source.put x op v).length = x.length := by
  cases op with
  | imm k => rfl
  | reg i => exact List.length_set

/-! ## The source's step, variant by variant -/

namespace Source

section
variable {m : Source.Machine W} {a b : Operand} (hin : 0 ≤ m.pc.toInt ∧ m.pc.toInt < m.prog.length)
include hin

theorem step_cpy (hi : m.prog[m.pc.toNat]? = some (.cpy a b)) :
    step m = { m with x := put m.x b (value m.x a), pc := m.pc + 1 } := by
  simp only [step, if_pos hin, hi]

theorem step_inc (hi : m.prog[m.pc.toNat]? = some (.inc a)) :
    step m = { m with x := put m.x a (value m.x a + 1), pc := m.pc + 1 } := by
  simp only [step, if_pos hin, hi]

theorem step_dec (hi : m.prog[m.pc.toNat]? = some (.dec a)) :
    step m = { m with x := put m.x a (value m.x a - 1), pc := m.pc + 1 } := by
  simp only [step, if_pos hin, hi]

theorem step_jnz_zero (hi : m.prog[m.pc.toNat]? = some (.jnz a b)) (hz : value m.x a = 0) :
    step m = { m with pc := m.pc + 1 } := by
  simp only [step, if_pos hin, hi, if_pos hz]

theorem step_jnz_taken (hi : m.prog[m.pc.toNat]? = some (.jnz a b)) (hz : value m.x a ≠ 0) :
    step m = { m with pc := m.pc + value m.x b } := by
  simp only [step, if_pos hin, hi, if_neg hz]

theorem step_tgl_in (hi : m.prog[m.pc.toNat]? = some (.tgl a))
    (ht : 0 ≤ (m.pc + value m.x a).toInt ∧ (m.pc + value m.x a).toInt < m.prog.length) :
    step m = { m with prog := m.prog.modify (m.pc + value m.x a).toNat toggled, pc := m.pc + 1 } := by
  simp only [step, if_pos hin, hi, if_pos ht]

theorem step_tgl_out (hi : m.prog[m.pc.toNat]? = some (.tgl a))
    (ht : ¬ (0 ≤ (m.pc + value m.x a).toInt ∧ (m.pc + value m.x a).toInt < m.prog.length)) :
    step m = { m with pc := m.pc + 1 } := by
  simp only [step, if_pos hin, hi, if_neg ht]

end

/-! ## The relation under the effects of an instruction -/

variable {m : Source.Machine W} {s t : Record W}

theorem Represents.pc_eq (h : Represents m s) : s.pc = m.pc := h.2.1

/-- R64, R73: the program store holds the word of each variant, well-formed. -/
theorem Represents.word_eq (h : Represents m s) {k : Nat} {i : Instr} (hi : m.prog[k]? = some i) :
    s.word k = encode W i ∧ i.wellFormed W s.nreg = true := h.2.2.2 k i hi

theorem Represents.inProgram_iff (h : Represents m s) (v : Word W) :
    s.inProgram v = true ↔ 0 ≤ v.toInt ∧ v.toInt < m.prog.length := by
  obtain ⟨-, -, hl, -⟩ := h
  rw [Machine.inProgram_iff, hl]

/-- An index of the program holds a variant. -/
theorem Represents.exists_instr (h : Represents m s) {v : Word W} (hin : s.inProgram v = true) :
    ∃ i, m.prog[v.toNat]? = some i := by
  obtain ⟨-, -, hl, -⟩ := h
  exact ⟨_, List.getElem?_eq_getElem (hl ▸ (toNat_of_inProgram hin).2)⟩

theorem Represents.congr (h : Represents m s) (hx : t.x = s.x) (hpc : t.pc = s.pc) (hl : t.plen = s.plen)
    (hw : ∀ k, t.word k = s.word k) : Represents m t := by
  obtain ⟨hx', hpc', hl', hw'⟩ := h
  have hn : t.nreg = s.nreg := congrArg List.length hx
  exact ⟨hx.trans hx', hpc.trans hpc', hl.trans hl', fun k i hi => by rw [hw, hn]; exact hw' k i hi⟩

theorem Represents.withPc (h : Represents m s) (v : Word W) : Represents { m with pc := v } (s.withPc v) := by
  obtain ⟨hx, -, hl, hw⟩ := h
  exact ⟨hx, rfl, hl, hw⟩

theorem Represents.advance (h : Represents m s) : Represents { m with pc := m.pc + 1 } s.advance := by
  rw [← h.pc_eq]
  exact h.withPc _

theorem Represents.withX (h : Represents m s) {x : List (Word W)} (hx : x.length = s.x.length) :
    Represents { m with x := x } (s.withX x) := by
  obtain ⟨-, hpc, hl, hw⟩ := h
  exact ⟨rfl, hpc, hl, fun k i hi => ⟨(hw k i hi).1, by rw [nreg_eq, Record.withX_x, hx]; exact (hw k i hi).2⟩⟩

/-- R107, R112: toggling the KIND of the word at an index is toggling the variant there. -/
theorem Represents.toggleKind (h : Represents m s) {k : Nat} {i : Instr} (hi : m.prog[k]? = some i) :
    Represents { m with prog := m.prog.modify k toggled } (s.toggleKind k (toggle i.kind).code) := by
  obtain ⟨hx, hpc, hl, hw⟩ := h
  refine ⟨hx, hpc, by rw [List.length_modify]; exact hl, fun j i' hj => ?_⟩
  rw [toggleKind_word, toggleKind_nreg]
  rw [List.getElem?_modify] at hj
  by_cases hjk : j = k
  · subst hjk
    obtain rfl : toggled i = i' := by simpa [hi] using hj
    obtain ⟨hword, hwf⟩ := hw j i hi
    rw [if_pos rfl, hword, setKindField_encode, toggled_wellFormed]
    exact ⟨rfl, hwf⟩
  · rw [if_neg hjk]
    exact hw j i' (by simpa [Ne.symm hjk] using hj)

/-! ## One instruction -/

/-- R93 to R112: on the variant at `pc`, the meaning of the instruction is the source's step, and raises no fault. -/
theorem Represents.exec_step (h : Represents m s) (hin : s.inProgram s.pc = true) {i : Instr}
    (hi : m.prog[m.pc.toNat]? = some i) :
    ∃ t : Record W, exec i s.state = .next t.state ∧ Represents (step m) t ∧ t.runState = s.runState := by
  obtain ⟨x, pc, prog⟩ := m
  have ⟨hx, hpc, _, _⟩ := h
  subst hx hpc
  have hreg := registersExist_of_wellFormed (h.word_eq hi).2
  have hrange := (h.inProgram_iff s.pc).1 hin
  cases i with
  | cpy a b =>
    obtain ⟨ha, hb⟩ := Bool.and_eq_true_iff.1 hreg
    refine ⟨_, exec_cpy ha hb, ?_, by rw [writeIfReg_eq_put]; rfl⟩
    rw [step_cpy hrange hi, writeIfReg_eq_put, val_eq_value]
    exact (h.withX (length_put ..)).advance
  | inc a =>
    refine ⟨_, exec_inc hreg, ?_, by rw [updateIfReg_eq_put]; rfl⟩
    rw [step_inc hrange hi, updateIfReg_eq_put]
    exact (h.withX (length_put ..)).advance
  | dec a =>
    refine ⟨_, exec_dec hreg, ?_, by rw [updateIfReg_eq_put]; rfl⟩
    rw [step_dec hrange hi, updateIfReg_eq_put]
    exact (h.withX (length_put ..)).advance
  | jnz a b =>
    obtain ⟨ha, hb⟩ := Bool.and_eq_true_iff.1 hreg
    by_cases hz : val a s = 0
    · refine ⟨_, exec_jnz_zero ha hb hz, ?_, rfl⟩
      rw [step_jnz_zero hrange hi (val_eq_value a s ▸ hz)]
      exact h.advance
    · refine ⟨_, exec_jnz_taken ha hb hz, ?_, rfl⟩
      rw [step_jnz_taken hrange hi (val_eq_value a s ▸ hz), val_eq_value]
      exact h.withPc _
  | tgl a =>
    have htarget := h.inProgram_iff (s.pc + val a s)
    rw [val_eq_value] at htarget
    cases hin' : s.inProgram (s.pc + val a s) with
    | false =>
      refine ⟨_, exec_tgl_out hreg hin', ?_, rfl⟩
      rw [val_eq_value] at hin'
      rw [step_tgl_out hrange hi (mt htarget.2 (by simp [hin']))]
      exact h.advance
    | true =>
      obtain ⟨j, hj⟩ := h.exists_instr hin'
      have hk : Kind.ofCode (kindField (s.word (s.pc + val a s).toNat)) = some j.kind := by
        rw [(h.word_eq hj).1, kindField_encode, Kind.ofCode_code]
      refine ⟨_, exec_tgl_toggles hreg hin' hk, ?_, rfl⟩
      rw [val_eq_value] at hin' hj ⊢
      rw [step_tgl_in hrange hi (htarget.1 hin')]
      exact (h.toggleKind hj).advance

/-! ## One turn of the run loop -/

/-- R78: the word fetched at an index of the program decodes to the variant there. -/
theorem Represents.decode_fetch (h : Represents m s) (hlegal : Config.legal W s.nreg s.pmax = true) {i : Instr}
    (hi : m.prog[m.pc.toNat]? = some i) : decode s.nreg s.fetch = .ok i := by
  obtain ⟨hword, hwf⟩ := h.word_eq hi
  simp only [Config.legal, Bool.and_eq_true, decide_eq_true_eq] at hlegal
  rw [Record.fetch, h.pc_eq, hword]
  exact decode_encode (by omega) (by omega) hwf

/-- R88: what the run loop does after an instruction without a fault leaves the source's machine as it is. -/
theorem Represents.finishRunStep (h : Represents m t) : Represents m (finishRunStep t) := by
  obtain ⟨⟨hx, hpc, hl, hp, -, -, -⟩, he⟩ := finishRunStep_sameData t
  exact h.congr hx hpc hl (word_congr hp he)

end Source

/-- R79, R88: after an instruction without a fault the run loop halts exactly when `pc` has left the program. -/
theorem finishRunStep_runState {t : Record W} (hr : t.runState = .running) :
    (finishRunStep t).runState ≠ .faulted ∧
      ((finishRunStep t).runState = .halted ↔ t.inProgram t.pc = false) := by
  have hf : t.runState ≠ .faulted := by simp [hr]
  cases hin : t.inProgram t.pc with
  | false => simp [finishRunStep_halt hf hin]
  | true =>
    cases hs : t.stopPending with
    | true => simp [finishRunStep_stop hf hin hs]
    | false => simp [finishRunStep_go hf hin hs, hr]

/-- One turn of the run loop on a machine that holds the source's is one step of the source's. -/
theorem Source.Represents.tick_step {m : Source.Machine W} {s : Record W} (h : Source.Represents m s) (hinv : Inv s)
    (hr : s.runState = .running) :
    ∃ t : Record W, tick s = .next t.state ∧ Source.Represents (Source.step m) t ∧ t.runState ≠ .faulted ∧
      (t.runState = .halted ↔ t.inProgram (Source.step m).pc = false) := by
  have hin := hinv.running_pc hr
  obtain ⟨i, hi⟩ := h.exists_instr hin
  rw [h.pc_eq] at hi
  obtain ⟨t, ht, hrep, hrun⟩ := h.exec_step hin hi
  have hperform := (performStep_ok (h.decode_fetch hinv.legal hi)).trans ht
  obtain ⟨hnf, hhalt⟩ := finishRunStep_runState (hrun.trans hr)
  obtain ⟨⟨-, -, hl, -⟩, -⟩ := finishRunStep_sameData t
  refine ⟨Machine.finishRunStep t, ?_, hrep.finishRunStep, hnf, ?_⟩
  · rw [tick_running hr, runStep, if_pos hin, hperform, onRecord_next]
  · rw [hhalt, inProgram_congr hl, hrep.pc_eq]

/-- Settles O47: the host's entry for the CORE's step is used up, and the step is a turn of the run loop. -/
theorem stepRefinesTheSourceMachine : Obligations.StepRefinesTheSourceMachine := by
  intro W m s rest hinv hr hcore hrep
  rw [step_core hcore]
  have hrep' : Source.Represents m (dropPending rest s) := hrep.congr rfl rfl rfl fun _ => rfl
  exact hrep'.tick_step (hinv.inv_dropPending rest) hr

end Sys2Proof
end

section
/-!
PROOFS. What an instruction may change: the exact changes an instruction can make, and what each of them leaves alone
(10_state.md R17, R31, R57).
-/

namespace Sys2Proof.Machine

variable {W : Nat} {i : Instr} {s t : Record W}

/-- The changes an instruction can make: a fault; a new `pc` alone; one register, only by `cpy`, `inc` and `dec`; the KIND
field of one word of the program, only by `tgl`. It says of a register write which register, where `Effect` does not. -/
inductive Change (i : Instr) (s : Record W) : Record W → Prop
  | raised (f : CoreFault W) : Change i s (raise f s)
  | moved (pc : Word W) : Change i s (s.withPc pc)
  | wrote (hi : ¬ (i.kind = .jnz ∨ i.kind = .tgl)) (r : Nat) (v : Word W) : Change i s (s.writeX r v).advance
  | toggled (hi : i.kind = .tgl) (k : Nat) (c : BitVec 3) (hk : k < s.plen) : Change i s (s.toggleKind k c).advance

/-- R94, R95: updating the register an operand names is writing the new value through the operand. -/
theorem updateIfReg_eq_writeIfReg (op : Operand) (f : Word W → Word W) (s : Record W) :
    updateIfReg op f s = writeIfReg op (f (val op s)) s := by
  cases op <;> rfl

/-- R86: a write through an operand changes the register it names, or nothing. -/
theorem change_writeIfReg (hi : ¬ (i.kind = .jnz ∨ i.kind = .tgl)) (op : Operand) (v : Word W) (s : Record W) :
    Change i s (writeIfReg op v s).advance := by
  cases op with
  | imm k => exact .moved _
  | reg r => exact .wrote hi r v

theorem change_updateIfReg (hi : ¬ (i.kind = .jnz ∨ i.kind = .tgl)) (op : Operand) (f : Word W → Word W)
    (s : Record W) : Change i s (updateIfReg op f s).advance := by
  rw [updateIfReg_eq_writeIfReg]
  exact change_writeIfReg hi op _ s

/-- R83, R93 to R109: an instruction always answers a next state, by one of these changes. -/
theorem exec_change (i : Instr) (s : Record W) : ∃ t : Record W, exec i s.state = .next t.state ∧ Change i s t := by
  cases hreg : i.registersExist s.nreg with
  | false =>
    obtain ⟨slot, ht, -⟩ := exec_bad s hreg
    exact ⟨_, ht, .raised _⟩
  | true =>
    cases i with
    | cpy a b =>
      obtain ⟨ha, hb⟩ := Bool.and_eq_true_iff.1 hreg
      exact ⟨_, exec_cpy ha hb, change_writeIfReg (by simp [Instr.kind]) b _ s⟩
    | inc a => exact ⟨_, exec_inc hreg, change_updateIfReg (by simp [Instr.kind]) a _ s⟩
    | dec a => exact ⟨_, exec_dec hreg, change_updateIfReg (by simp [Instr.kind]) a _ s⟩
    | jnz a b =>
      obtain ⟨ha, hb⟩ := Bool.and_eq_true_iff.1 hreg
      by_cases hz : val a s = 0
      · exact ⟨_, exec_jnz_zero ha hb hz, .moved _⟩
      · exact ⟨_, exec_jnz_taken ha hb hz, .moved _⟩
    | tgl a =>
      cases hin : s.inProgram (s.pc + val a s) with
      | false => exact ⟨_, exec_tgl_out hreg hin, .moved _⟩
      | true =>
        cases hk : Kind.ofCode (kindField (s.word (s.pc + val a s).toNat)) with
        | none => exact ⟨_, exec_tgl_unmapped hreg hin hk, .raised _⟩
        | some k => exact ⟨_, exec_tgl_toggles hreg hin hk, .toggled rfl _ _ (toNat_of_inProgram hin).2⟩

/-- R8, R18, R21: no instruction changes PLEN, PMAX or the number of registers. -/
theorem Change.keeps_sizes (h : Change i s t) : t.plen = s.plen ∧ t.pmax = s.pmax ∧ t.nreg = s.nreg := by
  cases h with
  | wrote hi r v => exact ⟨rfl, rfl, writeX_nreg s r v⟩
  | raised | moved | toggled => exact ⟨rfl, rfl, rfl⟩

/-- R17: at most one register changes. -/
theorem Change.one_register (h : Change i s t) : ∃ r, ∀ j, j ≠ r → t.readX j = s.readX j := by
  cases h with
  | wrote hi r v => exact ⟨r, fun j hj => readX_writeX_other s hj v⟩
  | raised | moved | toggled => exact ⟨0, fun _ _ => rfl⟩

/-- R17: `jnz` and `tgl` write no register. -/
theorem Change.keeps_registers (h : Change i s t) (hi : i.kind = .jnz ∨ i.kind = .tgl) : t.x = s.x := by
  cases h with
  | wrote hne r v => exact absurd hi hne
  | raised | moved | toggled => rfl

/-- R43, R107: replacing the KIND field keeps every other field. -/
theorem sameButKind_setKindField (w : RawWord W) (c : BitVec 3) : SameButKind w (setKindField w c) := by
  simp [SameButKind]

/-- R57, R107: a word that changes is one of the program, changed by a `tgl` and in its KIND field only. -/
theorem Change.changed_word (h : Change i s t) {k : Nat} (hne : t.word k ≠ s.word k) :
    i.kind = .tgl ∧ k < s.plen ∧ SameButKind (s.word k) (t.word k) := by
  cases h with
  | toggled hi j c hj =>
    rw [advance_word, toggleKind_word] at hne ⊢
    obtain rfl : k = j := by
      by_contra hkj
      exact hne (if_neg hkj)
    rw [if_pos rfl]
    exact ⟨hi, hj, sameButKind_setKindField _ _⟩
  | raised | moved | wrote => exact absurd rfl hne

/-- Settles O24: by the changes an instruction can make. -/
theorem instructionsChangeOnlyWhatTheyMay : Obligations.InstructionsChangeOnlyWhatTheyMay := by
  intro W i s
  obtain ⟨t, ht, hc⟩ := exec_change i s
  obtain ⟨hplen, hpmax, hnreg⟩ := hc.keeps_sizes
  exact ⟨t, ht, hplen, hpmax, hnreg, hc.one_register, hc.keeps_registers, fun _ => hc.changed_word⟩

end Sys2Proof.Machine
end

section
/-!
PROOFS. The run loop: how RUN and RESUME begin a run, and how it ends or goes on after a completed instruction
(40_step.md R79, R88, R89, R91).
-/

namespace Sys2Proof.Machine

variable {W : Nat} {s t : Record W}

/-! ## The commands RUN and RESUME -/

theorem step_command {v : Word W} {rest : List (HostAccess W)} (h : s.port.pending = .writeControl 6 v :: rest) :
    step s.state = command (v.extractLsb' 0 3) (dropPending rest s) :=
  step_access h

theorem command_run {c : BitVec 3} (hc : c.toNat = 1) (hw : hostMayWrite s = true) : command c s = run s := by
  simp [command, hc, hw]

theorem command_resume {c : BitVec 3} (hc : c.toNat = 2) (hw : hostMayWrite s = true) : command c s = resume s := by
  simp [command, hc, hw]

/-- R89: a RESUME in a program that was written starts the run. -/
theorem resume_launches (hin : s.inProgram s.pc = true) (hwr : s.programWritten = true) :
    resume s = .next s.beginRun.state := by
  simp [resume, hin, hwr]

/-- R79: index 0 is in every program that is not empty. -/
theorem inProgram_zero (h : 0 < s.plen) : s.inProgram 0 = true := by
  rw [inProgram_iff, BitVec.ofNat_eq_ofNat, BitVec.toInt_zero]
  omega

/-- Settles O32: RUN is RESUME from index 0, and a RESUME in a written program begins a run with one boundary. -/
theorem runAndResumeStartRunning : Obligations.RunAndResumeStartRunning := by
  intro W s v rest hwait hp hwr
  have hw : hostMayWrite (dropPending rest s) = true := (hostMayWrite_iff _).2 hwait
  constructor
  · intro hc hlen
    have hstep : step s.state = .next ((dropPending rest s).withPc 0).beginRun.state :=
      (step_command hp).trans ((command_run hc hw).trans (resume_launches (inProgram_zero hlen) hwr))
    exact ⟨_, hstep, rfl, ⟨rfl, rfl, rfl, rfl, rfl, rfl, rfl⟩, rfl, rfl⟩
  · intro hc hin
    have hstep : step s.state = .next (dropPending rest s).beginRun.state :=
      (step_command hp).trans ((command_resume hc hw).trans (resume_launches hin hwr))
    exact ⟨_, hstep, rfl, ⟨rfl, rfl, rfl, rfl, rfl, rfl, rfl⟩, rfl, rfl⟩

/-! ## One turn of the run loop -/

/-- R77, R88: a step of a RUNNING CORE is the decoded instruction's effect and then the run loop's check. -/
theorem step_of_exec {rest : List (HostAccess W)} {i : Instr} (hr : s.runState = .running) (hcore : CoreIsNext s rest)
    (hin : s.inProgram s.pc = true) (hdec : decode s.nreg s.fetch = .ok i)
    (hexec : exec i (dropPending rest s).state = .next t.state) : step s.state = .next (finishRunStep t).state := by
  have hperform : performStep (dropPending rest s) = .next t.state :=
    (performStep_ok (s := dropPending rest s) hdec).trans hexec
  have hrun : runStep (dropPending rest s) = onRecord finishRunStep (performStep (dropPending rest s)) := if_pos hin
  rw [step_core hcore, tick_running (s := dropPending rest s) hr, hrun, hperform, onRecord_next]

/-- An instruction that completes without a fault keeps the control fields. -/
theorem sameControl_of_exec {i : Instr} (h : exec i s.state = .next t.state) (hf : t.runState ≠ .faulted) :
    SameControl s t := by
  obtain ⟨u, hu, he⟩ := exec_effect s i
  rw [hu] at h
  cases h
  rcases he.raised_or_completed with ⟨f, rfl⟩ | ⟨hc, -⟩
  · exact absurd rfl hf
  · exact hc

/-- Settles O30: the three outcomes of the run loop's check, after an instruction that kept the pending STOP and the run's
boundaries. -/
theorem runLoopEndsOrGoesOn : Obligations.RunLoopEndsOrGoesOn := by
  intro W s t rest i hr hcore hin hdec hexec hf
  obtain ⟨-, hrun, -, -, hstop, -, -, hport⟩ := sameControl_of_exec hexec hf
  refine ⟨_, step_of_exec hr hcore hin hdec hexec, (finishRunStep_sameData t).1, ?_, ?_, ?_⟩
  · intro hout
    rw [finishRunStep_halt hf hout]
    exact ⟨rfl, rfl⟩
  · intro hin' hs
    rw [finishRunStep_stop hf hin' (hstop.trans hs)]
    exact ⟨rfl, rfl⟩
  · intro hin' hs
    rw [finishRunStep_go hf hin' (hstop.trans hs)]
    refine ⟨hrun.trans hr, hstop.trans hs, ?_⟩
    rw [Record.markBoundary_port, hport]
    rfl

end Sys2Proof.Machine
end

section
/-!
PROOFS. The host port: what a host write and a host read do in each STATE, and the fields of STATUS (10_state.md R23,
R26, R27).
-/

namespace Sys2Proof.Machine

variable {W : Nat} {s : Record W} {rest : List (HostAccess W)}

/-! ## Host writes -/

theorem not_hostMayWrite (h : s.runState = .running ∨ s.runState = .faulted) :
    ¬ hostMayWrite s = true := by
  rw [hostMayWrite_iff]
  rcases h with h | h <;> simp [h]

theorem step_writeX {i : Nat} {v : Word W} (hp : s.port.pending = .writeX i v :: rest) (hi : i < s.nreg) :
    step s.state =
      if hostMayWrite s then .next ((dropPending rest s).writeX i v).state else .next (dropPending rest s).state :=
  (step_access hp).trans (if_pos hi)

theorem step_writeP {k : Nat} {w : RawWord W} (hp : s.port.pending = .writeP k w :: rest) (hk : k < s.pmax) :
    step s.state =
      if hostMayWrite s then .next ((dropPending rest s).withProg (s.prog.write k w)).state
      else .next (dropPending rest s).state :=
  (step_access hp).trans (if_pos hk)

theorem step_writePc {v : Word W} (hp : s.port.pending = .writeControl 1 v :: rest) :
    step s.state =
      if hostMayWrite s then .next ((dropPending rest s).withPc v).state else .next (dropPending rest s).state :=
  step_access hp

theorem step_writePlen {v : Word W} (hp : s.port.pending = .writeControl 2 v :: rest) :
    step s.state =
      if hostMayWrite s then .next (writePlen v (dropPending rest s)).state else .next (dropPending rest s).state :=
  step_access hp

/-- R26: STATUS, FINFO, CFG_NREG and CFG_PMAX are read-only; the numbers above COMMAND name no register. -/
theorem hostWriteControl_readOnly {no : Nat} (h : no = 0 ∨ no = 3 ∨ no = 4 ∨ no = 5 ∨ 6 < no) (v : Word W) :
    hostWriteControl no v s = .next s.state := by
  unfold hostWriteControl
  split
  · omega
  · omega
  · omega
  · rfl

/-- R44: what a fetch of index `j` sees after a host write of `P[k]`. -/
theorem withProg_write_word (j k : Nat) (w : RawWord W) :
    (s.withProg (s.prog.write k w)).word j = if j = k then w else s.word j :=
  Memory.word_write ..

/-- R26, D25: a write of PLEN changes PLEN alone, to a value that the store can hold. -/
theorem writePlen_eq (v : Word W) :
    writePlen v s = s.withPlen (if v.toNat ≤ s.pmax then v.toNat else s.plen) := by
  unfold writePlen
  split <;> rfl

/-- Settles O37: while RUNNING or FAULTED no write is let through, and no STATE lets through a write of a read-only
register. -/
theorem refusedHostWritesHaveNoEffect : Obligations.RefusedHostWritesHaveNoEffect := by
  intro W s rest
  constructor
  · intro hr
    have hw := not_hostMayWrite hr
    exact ⟨fun i v hi hp => (step_writeX hp hi).trans (if_neg hw),
      fun k w hk hp => (step_writeP hp hk).trans (if_neg hw),
      fun v hp => (step_writePc hp).trans (if_neg hw),
      fun v hp => (step_writePlen hp).trans (if_neg hw)⟩
  · intro no v hno hp
    exact (step_access hp).trans (hostWriteControl_readOnly hno v)

/-- Settles O38: in IDLE and HALTED every write is let through, and each changes one field of the record. -/
theorem hostWritesLand : Obligations.HostWritesLand := by
  intro W s rest hwait
  have hw := (hostMayWrite_iff s).2 hwait
  refine ⟨fun i v hi hp => ?_, fun k w hk hp => ?_, fun v hp => ?_, fun v hp => ?_⟩
  · exact ⟨_, (step_writeX hp hi).trans (if_pos hw), readX_writeX_same _ hi v,
      fun j hj => readX_writeX_other _ hj v, fun _ => rfl, rfl,
      rfl, rfl, rfl, rfl, rfl, writeX_nreg _ i v, rfl, rfl⟩
  · exact ⟨_, (step_writeP hp hk).trans (if_pos hw), (withProg_write_word k k w).trans (if_pos rfl),
      fun j hj => (withProg_write_word j k w).trans (if_neg hj), rfl, rfl,
      rfl, rfl, rfl, rfl, rfl, rfl, rfl, rfl⟩
  · exact ⟨_, (step_writePc hp).trans (if_pos hw), rfl, rfl, fun _ => rfl,
      rfl, rfl, rfl, rfl, rfl, rfl, rfl, rfl⟩
  · have hstep := (step_writePlen hp).trans (if_pos hw)
    rw [writePlen_eq] at hstep
    exact ⟨_, hstep, rfl, rfl, rfl, fun _ => rfl, rfl, rfl, rfl, rfl, rfl⟩

/-! ## STATUS -/

/-- R26: bit `b` of the STATUS layout, where the register has it. -/
theorem getLsbD_statusWord {b : Nat} (hb : b < W) :
    (statusWord s).getLsbD b =
      if b < 2 then (runStateCode s.runState).getLsbD b else if b < 4 then false else s.cause.getLsbD (b - 4) := by
  have hgap : ∀ j, (0 : BitVec 2).getLsbD j = false := fun _ => BitVec.getLsbD_zero
  rw [statusWord, BitVec.getLsbD_setWidth, decide_eq_true hb, Bool.true_and, BitVec.getLsbD_append,
    BitVec.getLsbD_append, hgap, Nat.sub_sub]
  by_cases h : b < 2
  · rw [if_pos h, if_pos h]
  · rw [if_neg h, if_neg h, if_congr (show b - 2 < 2 ↔ b < 4 by omega) rfl rfl]

/-- Settles O39: bit by bit; the bits from 8 on are beyond the four of CAUSE. -/
theorem statusRegisterLayout : Obligations.StatusRegisterLayout := by
  refine ⟨fun W s b hb => ?_, rfl, rfl, rfl, rfl⟩
  rw [getLsbD_statusWord hb]
  refine ⟨fun h2 => if_pos h2, fun h4 h8 => ?_, ?_⟩
  · rw [if_neg (by omega), if_neg (by omega)]
  · rintro (rfl | rfl | h8)
    · rfl
    · rfl
    · rw [if_neg (by omega), if_neg (by omega), BitVec.getLsbD_of_ge _ _ (by omega)]

/-! ## Host reads -/

/-- R27, R47: a host read leaves the record as it is. -/
theorem sameRecord_answer (r : HostReply W) :
    SameRecord s (answer r (dropPending rest s)) :=
  ⟨⟨rfl, rfl, rfl, rfl, rfl, rfl, rfl⟩, rfl, rfl⟩

theorem step_readX {i : Nat} (hp : s.port.pending = .readX i :: rest) (hi : i < s.nreg) :
    step s.state = .next (answer (.word ((readView s).x.getD i 0)) (dropPending rest s)).state :=
  (step_access hp).trans (if_pos hi)

theorem step_readP {k : Nat} (hp : s.port.pending = .readP k :: rest) (hk : k < s.pmax) :
    step s.state =
      .next (answer (.instruction ((readView s).prog.word s.port.epoch k)) (dropPending rest s)).state :=
  (step_access hp).trans (if_pos hk)

theorem step_readControl {no : Nat} (hp : s.port.pending = .readControl no :: rest) :
    step s.state = .next (answer (.word (controlValue no s)) (dropPending rest s)).state :=
  step_access hp

/-- R27: while the CORE is not RUNNING a read sees the current state. -/
theorem readView_waiting (h : s.runState ≠ .running) : readView s = s.snapshot :=
  if_neg h

/-- R27: while RUNNING a read sees one of the run's boundaries, whatever the free value is. -/
theorem readView_mem_boundaries (hr : s.runState = .running) (hb : s.port.boundaries ≠ []) :
    readView s ∈ s.port.boundaries := by
  rw [readView, if_pos hr, List.getD_eq_getElem _ _ (Nat.mod_lt _ (List.length_pos_iff.2 hb))]
  exact List.getElem_mem _

/-- R26: every control register but `pc` reads its current value, in every STATE; PLEN, CFG_NREG and CFG_PMAX read
exactly when a register can hold the number. -/
theorem controlValue_current (s : Record W) (no : Nat) :
    (no = 0 → controlValue no s = statusWord s) ∧
    (no = 2 → s.plen < 2 ^ W → (controlValue no s).toNat = s.plen) ∧
    (no = 3 → controlValue no s = s.finfo) ∧
    (no = 4 → s.nreg < 2 ^ W → (controlValue no s).toNat = s.nreg) ∧
    (no = 5 → s.pmax < 2 ^ W → (controlValue no s).toNat = s.pmax) ∧
    (no = 6 → controlValue no s = 0) := by
  have exact_of_lt {n : Nat} (h : n < 2 ^ W) : (BitVec.ofNat W n).toNat = n :=
    (BitVec.toNat_ofNat ..).trans (Nat.mod_eq_of_lt h)
  refine ⟨?_, ?_, ?_, ?_, ?_, ?_⟩ <;> rintro rfl
  · rfl
  · exact exact_of_lt
  · rfl
  · exact exact_of_lt
  · exact exact_of_lt
  · rfl

/-- R26, R27: control register 1 reads the `pc` of the boundary that a host read sees. -/
theorem controlValue_pc (s : Record W) : controlValue 1 s = (readView s).pc := rfl

/-- Settles O40: outside RUNNING the state that a read sees is the current one. -/
theorem hostReadsAnswerCurrentValues : Obligations.HostReadsAnswerCurrentValues := by
  intro W s rest hr
  have hview := readView_waiting hr
  refine ⟨fun no hp => ?_, fun i hi hp => ?_, fun k hk hp => ?_⟩
  · obtain ⟨hstatus, hplen, hfinfo, hnreg, hpmax, hcommand⟩ := controlValue_current s no
    refine ⟨_, _, step_readControl hp, rfl, sameRecord_answer _, hstatus, ?_, hplen, hfinfo, hnreg, hpmax, hcommand⟩
    rintro rfl
    exact (controlValue_pc s).trans (congrArg Boundary.pc hview)
  · have hstep := step_readX hp hi
    rw [hview] at hstep
    exact ⟨_, hstep, rfl, sameRecord_answer _⟩
  · have hstep := step_readP hp hk
    rw [hview] at hstep
    exact ⟨_, hstep, rfl, sameRecord_answer _⟩

/-- Settles O41: the state that a read of `x`, `P` or `pc` sees is one of the run's boundaries. -/
theorem hostReadsWhileRunningDrawABoundary : Obligations.HostReadsWhileRunningDrawABoundary := by
  intro W s rest hr hb
  have hmem := readView_mem_boundaries hr hb
  refine ⟨fun i hi hp => ?_, fun k hk hp => ?_, fun no hp => ?_⟩
  · exact ⟨_, _, hmem, step_readX hp hi, rfl, sameRecord_answer _⟩
  · exact ⟨_, _, hmem, step_readP hp hk, rfl, sameRecord_answer _⟩
  · obtain ⟨hstatus, hplen, hfinfo, hnreg, hpmax, hcommand⟩ := controlValue_current s no
    refine ⟨_, _, step_readControl hp, rfl, sameRecord_answer _, hstatus, ?_, hplen, hfinfo, hnreg, hpmax, hcommand⟩
    rintro rfl
    exact ⟨_, hmem, controlValue_pc s⟩

end Sys2Proof.Machine
end

section
/-!
PROOFS. The host's accesses to come: no operation of the CORE adds or drops one, and a step uses up the next
(10_state.md R27).
-/

namespace Sys2Proof.Machine

variable {W : Nat} {s t : Record W}

theorem Effect.keeps_pending (h : Effect s t) : t.port.pending = s.port.pending := by
  cases h <;> rfl

@[simp] theorem finishRunStep_pending (t : Record W) : (finishRunStep t).port.pending = t.port.pending := by
  unfold finishRunStep
  split_ifs <;> rfl

@[simp] theorem finishSingleStep_pending (t : Record W) : (finishSingleStep t).port.pending = t.port.pending := by
  unfold finishSingleStep
  split_ifs <;> rfl

/-- The CORE makes no host accesses: a step adds none to those to come. -/
theorem StepEffect.keeps_pending (h : StepEffect s t) : t.port.pending = s.port.pending := by
  cases h with
  | ran hr hin u hu => exact (finishRunStep_pending u).trans (effect_of_performStep hu).keeps_pending
  | singleStepped hw hin hwr u hu =>
    exact (finishSingleStep_pending u).trans (effect_of_performStep hu).keeps_pending
  | unchanged | answered | reset | wrotePc | wrotePlen | wroteX | wroteP | stopLatched | halted | launched => rfl

/-- One step uses up the host's next access, if there is one. -/
theorem step_pending (h : step s.state = .next t.state) : t.port.pending = s.port.pending.tail := by
  obtain ⟨u, hu, he⟩ := step_effect h
  cases hu
  exact he.keeps_pending

end Sys2Proof.Machine
end

section
/-!
PROOFS. Two machines that agree on the program and what runs it: which operations keep them agreeing, and from that
every run (20_memory.md R44, 70_reset_and_hazards.md R134).
-/

namespace Sys2Proof

open Machine

variable {W : Nat} {s s' : Record W}

/-! ## What agreeing machines read alike -/

theorem AgreeOnTheRun.x_eq (h : AgreeOnTheRun s s') : s'.x = s.x := h.1

theorem AgreeOnTheRun.pc_eq (h : AgreeOnTheRun s s') : s'.pc = s.pc := by
  obtain ⟨-, hpc, -⟩ := h
  exact hpc

theorem AgreeOnTheRun.plen_eq (h : AgreeOnTheRun s s') : s'.plen = s.plen := by
  obtain ⟨-, -, hl, -⟩ := h
  exact hl

theorem AgreeOnTheRun.runState_eq (h : AgreeOnTheRun s s') : s'.runState = s.runState := by
  obtain ⟨-, -, -, hr, -⟩ := h
  exact hr

theorem AgreeOnTheRun.stopPending_eq (h : AgreeOnTheRun s s') : s'.stopPending = s.stopPending := by
  obtain ⟨-, -, -, -, -, -, hs, -⟩ := h
  exact hs

theorem AgreeOnTheRun.pending_eq (h : AgreeOnTheRun s s') : s'.port.pending = s.port.pending := by
  obtain ⟨-, -, -, -, -, -, -, hp, -⟩ := h
  exact hp

theorem AgreeOnTheRun.word_eq (h : AgreeOnTheRun s s') {k : Nat} (hk : k < s.plen) : s'.word k = s.word k := by
  obtain ⟨-, -, -, -, -, -, -, -, hw⟩ := h
  exact hw k hk

theorem AgreeOnTheRun.nreg_eq (h : AgreeOnTheRun s s') : s'.nreg = s.nreg := congrArg List.length h.x_eq

theorem AgreeOnTheRun.inProgram_eq (h : AgreeOnTheRun s s') (v : Word W) : s'.inProgram v = s.inProgram v :=
  inProgram_congr h.plen_eq v

theorem AgreeOnTheRun.val_eq (h : AgreeOnTheRun s s') (op : Operand) : val op s' = val op s := by
  rw [val_eq_value, val_eq_value, h.x_eq]

/-- R78: at an index of the program they fetch the same word. -/
theorem AgreeOnTheRun.fetch_eq (h : AgreeOnTheRun s s') (hin : s.inProgram s.pc = true) : s'.fetch = s.fetch := by
  rw [Record.fetch, h.pc_eq, h.word_eq (toNat_of_inProgram hin).2]
  rfl

/-! ## The operations that keep machines agreeing -/

theorem AgreeOnTheRun.withX (h : AgreeOnTheRun s s') (x : List (Word W)) : AgreeOnTheRun (s.withX x) (s'.withX x) := by
  obtain ⟨-, hrest⟩ := h
  exact ⟨rfl, hrest⟩

theorem AgreeOnTheRun.withPc (h : AgreeOnTheRun s s') (v : Word W) : AgreeOnTheRun (s.withPc v) (s'.withPc v) := by
  obtain ⟨hx, -, hrest⟩ := h
  exact ⟨hx, rfl, hrest⟩

theorem AgreeOnTheRun.advance (h : AgreeOnTheRun s s') : AgreeOnTheRun s.advance s'.advance := by
  rw [Record.advance, Record.advance, h.pc_eq]
  exact h.withPc _

theorem AgreeOnTheRun.markBoundary (h : AgreeOnTheRun s s') : AgreeOnTheRun s.markBoundary s'.markBoundary := h

theorem AgreeOnTheRun.endRun (h : AgreeOnTheRun s s') (r : RunState) : AgreeOnTheRun (s.endRun r) (s'.endRun r) := by
  obtain ⟨hx, hpc, hl, -, hc, hi, -, hp, hw⟩ := h
  exact ⟨hx, hpc, hl, rfl, hc, hi, rfl, hp, hw⟩

theorem AgreeOnTheRun.raise (h : AgreeOnTheRun s s') (f : CoreFault W) :
    AgreeOnTheRun (Machine.raise f s) (Machine.raise f s') := by
  obtain ⟨hx, hpc, hl, -, -, -, -, hp, hw⟩ := h
  exact ⟨hx, hpc, hl, rfl, rfl, rfl, rfl, hp, hw⟩

/-- R43: a toggle within the program writes the same word in both. -/
theorem AgreeOnTheRun.toggleKind (h : AgreeOnTheRun s s') {k : Nat} (hk : k < s.plen) (c : BitVec 3) :
    AgreeOnTheRun (s.toggleKind k c) (s'.toggleKind k c) := by
  obtain ⟨hx, hpc, hl, hr, hc, hi, hs, hp, hw⟩ := h
  refine ⟨hx, hpc, hl, hr, hc, hi, hs, hp, fun j hj => ?_⟩
  rw [toggleKind_word, toggleKind_word, hw k hk, hw j hj]

theorem AgreeOnTheRun.writeIfReg (h : AgreeOnTheRun s s') (op : Operand) (v : Word W) :
    AgreeOnTheRun (Machine.writeIfReg op v s) (Machine.writeIfReg op v s') := by
  rw [writeIfReg_eq_put, writeIfReg_eq_put, h.x_eq]
  exact h.withX _

theorem AgreeOnTheRun.updateIfReg (h : AgreeOnTheRun s s') (op : Operand) (f : Word W → Word W) :
    AgreeOnTheRun (Machine.updateIfReg op f s) (Machine.updateIfReg op f s') := by
  rw [updateIfReg_eq_put, updateIfReg_eq_put, h.x_eq]
  exact h.withX _

/-- R83: the guard lets both machines through or raises the same fault in both. -/
theorem AgreeOnTheRun.guardReg (h : AgreeOnTheRun s s') {slot : Slot} {op : Operand} {t t' : Record W}
    (ht : AgreeOnTheRun t t') : AgreeOnTheRun (Machine.guardReg slot op s t) (Machine.guardReg slot op s' t') := by
  unfold Machine.guardReg
  rw [h.nreg_eq]
  split
  · exact ht
  · exact h.raise _

/-! ## One instruction and one turn of the run loop -/

/-- Both operations answer a next state, and the two states agree. -/
def AnswersAgree (W : Nat) (r r' : Result) : Prop :=
  ∃ t t' : Record W, r = .next t.state ∧ r' = .next t'.state ∧ AgreeOnTheRun t t'

theorem AgreeOnTheRun.answers (h : AgreeOnTheRun s s') : AnswersAgree W (.next s.state) (.next s'.state) :=
  ⟨s, s', rfl, rfl, h⟩

/-- R93 to R109: an instruction reads no word at or beyond PLEN; only a `tgl` reads a word, and its target is in the
program. -/
theorem AgreeOnTheRun.exec (h : AgreeOnTheRun s s') (i : Instr) :
    AnswersAgree W (Machine.exec i s.state) (Machine.exec i s'.state) := by
  cases i with
  | cpy a b =>
    refine (h.guardReg (h.guardReg ?_)).answers
    rw [h.val_eq a]
    exact (h.writeIfReg b _).advance
  | inc a => exact (h.guardReg (h.updateIfReg a _).advance).answers
  | dec a => exact (h.guardReg (h.updateIfReg a _).advance).answers
  | jnz a b =>
    refine (h.guardReg (h.guardReg ?_)).answers
    rw [h.val_eq a, h.val_eq b, h.pc_eq]
    split
    · exact h.advance
    · exact h.withPc _
  | tgl a =>
    refine (h.guardReg ?_).answers
    have htarget : toggleTarget a s' = toggleTarget a s := by rw [toggleTarget, h.val_eq, h.pc_eq, toggleTarget]
    rw [htarget, h.inProgram_eq]
    split
    next hin =>
      have hk := (toNat_of_inProgram hin).2
      rw [h.word_eq hk]
      cases Kind.ofCode (kindField (s.word (toggleTarget a s).toNat)) with
      | none => exact h.raise _
      | some k => exact (h.toggleKind hk _).advance
    next => exact h.advance

/-- R77: with `pc` in the program both fetch and decode the same word. -/
theorem AgreeOnTheRun.performStep (h : AgreeOnTheRun s s') (hin : s.inProgram s.pc = true) :
    AnswersAgree W (Machine.performStep s) (Machine.performStep s') := by
  have hdec : decode s'.nreg s'.fetch = decode s.nreg s.fetch := by rw [h.nreg_eq, h.fetch_eq hin]
  cases hd : decode s.nreg s.fetch with
  | error f =>
    rw [performStep_error hd, performStep_error (hdec.trans hd)]
    exact (h.raise f).answers
  | ok i =>
    rw [performStep_ok hd, performStep_ok (hdec.trans hd)]
    exact h.exec i

/-- R88: the run loop's check reads STATE, `pc`, PLEN and the pending STOP. -/
theorem AgreeOnTheRun.finishRunStep (h : AgreeOnTheRun s s') :
    AgreeOnTheRun (Machine.finishRunStep s) (Machine.finishRunStep s') := by
  unfold Machine.finishRunStep
  rw [h.runState_eq, h.pc_eq, h.inProgram_eq, h.stopPending_eq]
  split
  · exact h
  split
  · exact h.endRun _
  split
  · exact h.endRun _
  · exact h.markBoundary

theorem AgreeOnTheRun.tick (h : AgreeOnTheRun s s') : AnswersAgree W (Machine.tick s) (Machine.tick s') := by
  by_cases hr : s.runState = .running
  · rw [tick_running hr, tick_running (h.runState_eq.trans hr)]
    have hin' : s'.inProgram s'.pc = s.inProgram s.pc := by rw [h.pc_eq, h.inProgram_eq]
    cases hin : s.inProgram s.pc with
    | false =>
      rw [runStep_out hin, runStep_out (hin'.trans hin)]
      exact (h.endRun _).answers
    | true =>
      obtain ⟨t, t', ht, ht', hagree⟩ := h.performStep hin
      rw [runStep, runStep, if_pos hin, if_pos (hin'.trans hin), ht, ht', onRecord_next, onRecord_next]
      exact hagree.finishRunStep.answers
  · rw [tick_waiting hr, tick_waiting (h.runState_eq ▸ hr)]
    exact h.answers

/-! ## Runs the host leaves alone -/

/-- Settles O49: every step of machines left alone by the host is a step of the CORE, which keeps them agreeing. -/
theorem wordsBeyondTheProgramNeverAffectARun : Obligations.WordsBeyondTheProgramNeverAffectARun := by
  intro W s s' hp h n
  induction n generalizing s s' with
  | zero => exact ⟨s, s', run_zero _, run_zero _, h⟩
  | succ n ih =>
    obtain ⟨t, t', ht, ht', hagree⟩ := h.tick
    rw [← step_noAccess hp] at ht
    rw [← step_noAccess (h.pending_eq.trans hp)] at ht'
    have hp' : t.port.pending = [] := by rw [step_pending ht, hp, List.tail_nil]
    rw [run_succ_of_step ht, run_succ_of_step ht']
    exact ih t t' hp' hagree

end Sys2Proof
end

section
/-!
PROOFS. A toggle and the fetches after it: the word a `tgl` leaves decodes to the toggled instruction (20_memory.md R50,
R52; 43_toggle.md R111, R112).
-/

namespace Sys2Proof.Machine

variable {W : Nat} {s : Record W} {i : Instr}

theorem oneOperand_toggle (k : Kind) : (toggle k).oneOperand = k.oneOperand := by cases k <;> rfl

theorem toggled_instr (k : Kind) (a b : Operand) : Source.toggled (k.instr a b) = (toggle k).instr a b := by
  cases k <;> rfl

/-- R68: the kind of a decoded instruction is that of its word. -/
theorem ofCode_kindField_of_decode {nreg : Nat} {w : RawWord W} (h : decode nreg w = .ok i) :
    Kind.ofCode (kindField w) = some i.kind := by
  obtain ⟨k, hk, -, -, -, -, rfl⟩ := decode_ok h
  rw [hk, Kind.instr_kind]

/-- R112: the toggle map keeps the number of operands, so a word that decodes still does after a toggle. -/
theorem decode_toggled {nreg : Nat} {w : RawWord W} (h : decode nreg w = .ok i) :
    decode nreg (setKindField w (toggle i.kind).code) = .ok (Source.toggled i) := by
  obtain ⟨k, -, hrsv, hb, hina, hinb, rfl⟩ := decode_ok h
  rw [toggled_instr, Kind.instr_kind]
  have hchecks := decode_of_checks (nreg := nreg) (w := setKindField w (toggle k).code) (k := toggle k)
    (by simp) (by simpa using hrsv) (by simpa [oneOperand_toggle] using hb) (by simpa using hina)
    (by simpa [oneOperand_toggle] using hinb)
  rwa [operandA_setKindField, operandB_setKindField] at hchecks

/-- The state after a `tgl a` of a run that goes on: the target's KIND toggled from that of `i`, `pc` advanced, and one
boundary more (R88, R107). -/
def afterToggle (a : Operand) (i : Instr) (s : Record W) : Record W :=
  (s.toggleKind (toggleTarget a s).toNat (toggle i.kind).code).advance.markBoundary

/-- R50, R111: after the toggle the target's word decodes to the toggled instruction. -/
theorem decode_afterToggle {a : Operand} (h : decode s.nreg (s.word (toggleTarget a s).toNat) = .ok i) :
    decode (afterToggle a i s).nreg ((afterToggle a i s).word (toggleTarget a s).toNat) = .ok (Source.toggled i) := by
  rw [afterToggle, markBoundary_word, advance_word, toggleKind_word, if_pos rfl]
  exact decode_toggled h

/-- R77, R88: `step_of_exec` where the host makes no more accesses. -/
theorem step_of_exec_alone {t : Record W} (hr : s.runState = .running) (hp : s.port.pending = [])
    (hin : s.inProgram s.pc = true) (hdec : decode s.nreg s.fetch = .ok i) (hexec : exec i s.state = .next t.state) :
    step s.state = .next (finishRunStep t).state := by
  rw [← dropPending_self hp] at hexec
  exact step_of_exec hr (.inl ⟨hp, rfl⟩) hin hdec hexec

/-- R77, R88: the step of a `tgl` of a word that decodes, while the run goes on. -/
theorem step_tgl {a : Operand} (hr : s.runState = .running) (hp : s.port.pending = []) (hs : s.stopPending = false)
    (hin : s.inProgram s.pc = true) (hnext : s.inProgram (s.pc + 1) = true)
    (hdec : decode s.nreg s.fetch = .ok (.tgl a)) (htarget : s.inProgram (toggleTarget a s) = true)
    (hi : decode s.nreg (s.word (toggleTarget a s).toNat) = .ok i) :
    step s.state = .next (afterToggle a i s).state := by
  have hexec := exec_tgl_toggles (decode_registersExist hdec) htarget (ofCode_kindField_of_decode hi)
  have hgo := finishRunStep_go
    (t := (s.toggleKind (toggleTarget a s).toNat (toggle i.kind).code).advance) (by simp [hr]) hnext hs
  exact (step_of_exec_alone hr hp hin hdec hexec).trans (next_congr hgo)

/-- Settles O23: the `tgl` completes and the run goes on; the next step fetches the toggled word at `pc + 1`, and a
self-toggle leaves the toggled `tgl`, an `inc`, at `pc`. -/
theorem toggleIsSeenByTheNextFetch : Obligations.ToggleIsSeenByTheNextFetch := by
  intro W s a hr hp hs hin hnext hdec
  constructor
  · intro i hval hi
    have htarget : toggleTarget a s = s.pc + 1 := by rw [toggleTarget, hval]
    rw [← htarget] at hi
    obtain ⟨u, hu, -⟩ := exec_effect (afterToggle a i s) (Source.toggled i)
    have hfetch := decode_afterToggle hi
    rw [htarget] at hfetch
    refine ⟨_, u, step_tgl hr hp hs hin hnext hdec (htarget ▸ hnext) hi, hr, rfl, rfl, hu, ?_⟩
    exact step_of_exec_alone hr hp hnext hfetch hu
  · intro hval
    have htarget : toggleTarget a s = s.pc := by simp [toggleTarget, hval]
    have hi : decode s.nreg (s.word (toggleTarget a s).toNat) = .ok (.tgl a) := htarget ▸ hdec
    refine ⟨_, step_tgl hr hp hs hin hnext hdec (htarget ▸ hin) hi, hr, ?_⟩
    have hself := decode_afterToggle hi
    rwa [htarget] at hself

end Sys2Proof.Machine
end

section
/-!
PROOFS. The encoding (30_encoding.md): assembling what is decoded gives the word back, the bits of a word the decoder
accepts, and the decoder's checks one by one.
-/

namespace Sys2Proof

open Machine

variable {W nreg : Nat} {w : RawWord W} {k : Kind}

/-! ## Kinds by their codes (R59) -/

theorem Kind.ofCode_eq_some_iff (c : BitVec 3) (k : Kind) : Kind.ofCode c = some k ↔ c.toNat = k.code.toNat := by
  revert c; cases k <;> decide

theorem Kind.exists_of_code_lt {c : BitVec 3} (h : c.toNat < 5) : ∃ k, Kind.ofCode c = some k :=
  Option.ne_none_iff_exists'.1 fun hnone => absurd ((Kind.ofCode_none_iff c).1 hnone) (by omega)

/-- R59, R61: the kinds that take one operand, by code. -/
theorem Kind.oneOperand_iff_of_ofCode {c : BitVec 3} (h : Kind.ofCode c = some k) :
    k.oneOperand = true ↔ c.toNat = 1 ∨ c.toNat = 2 ∨ c.toNat = 4 := by
  rw [(Kind.ofCode_eq_some_iff c k).1 h]
  cases k <;> decide

theorem Kind.code_lt_of_ofCode {c : BitVec 3} (h : Kind.ofCode c = some k) : c.toNat < 5 := by
  by_contra hlt
  rw [(Kind.ofCode_none_iff c).2 (by omega)] at h
  cases h

/-! ## The word of what is decoded (R73, R75) -/

/-- R73: the word of a kind with operands, the kind's number of operands as a condition on operand B. -/
theorem encode_instr (k : Kind) (a b : Operand) : encode W (k.instr a b) =
    assemble 0 k.code a.tag (a.field W) (if k.oneOperand then noOperand W else b.pack W) := by
  cases k <;> rfl

/-- R56, R73: packing operand B of a word gives its field back. -/
theorem pack_operandB (w : RawWord W) : (operandB w).pack W = bField w := by
  rw [← bField_assemble 0 0 0 0 ((operandB w).pack W)]
  apply bField_ext
  · rw [bTag_assemble, pack_tag, operandB, tag_operandOf]
  · rw [bVal_assemble, pack_field, operandB, field_operandOf]

/-- R75: encoding a decoded instruction gives the word back. -/
theorem encode_of_decode {i : Instr} (h : decode nreg w = .ok i) : encode W i = w := by
  obtain ⟨k, hk, hrsv, hb, -, -, rfl⟩ := decode_ok h
  rw [encode_instr]
  have hB : (if k.oneOperand then noOperand W else (operandB w).pack W) = bField w := by
    split
    next hone => exact (hb hone).symm
    next => exact pack_operandB w
  rw [hB]
  apply word_ext
  · rw [rsvField_assemble, hrsv]
  · rw [kindField_assemble, Kind.code_of_ofCode hk]
  · rw [aTag_assemble, operandA, tag_operandOf]
  · rw [aVal_assemble, operandA, field_operandOf]
  · rw [bField_assemble]

/-! ## The words the decoder accepts (R64) -/

/-- R68: the decoder accepts a word of kind `k` exactly when every check passes. -/
theorem decode_isOk_iff (hk : Kind.ofCode (kindField w) = some k) : (∃ i, decode nreg w = .ok i) ↔
    rsvField w = 0 ∧ (k.oneOperand = true → bField w = 0) ∧ (operandA w).inFile nreg = true ∧
      (k.oneOperand = false → (operandB w).inFile nreg = true) := by
  constructor
  · rintro ⟨i, h⟩
    obtain ⟨k', hk', hrsv, hb, ha, hc, -⟩ := decode_ok h
    obtain rfl : k' = k := Option.some.inj (hk'.symm.trans hk)
    exact ⟨hrsv, hb, ha, hc⟩
  · rintro ⟨hrsv, hb, ha, hc⟩
    exact ⟨_, decode_of_checks hk hrsv hb ha hc⟩

/-- R64: the well-formedness of a word of kind `k`, by its operands. -/
theorem wordWellFormed_iff (hk : Kind.ofCode (kindField w) = some k) : wordWellFormed nreg w = true ↔
    rsvField w = 0 ∧ (k.oneOperand = true → bField w = 0) ∧ (operandA w).inFile nreg = true ∧
      (k.oneOperand = false → (operandB w).inFile nreg = true) := by
  have hle : (kindField w).toNat ≤ 4 := Nat.le_of_lt_succ (Kind.code_lt_of_ofCode hk)
  have hone : (kindField w).toNat ∈ [1, 2, 4] ↔ k.oneOperand = true := by
    simpa using (Kind.oneOperand_iff_of_ofCode hk).symm
  simp only [wordWellFormed, operandA, operandB, inFile_operandOf, hone, hle]
  cases k.oneOperand with
  | true => simp [and_assoc]
  | false => simp [and_assoc, and_comm]

/-! ## The decoder's checks (R68) -/

theorem not_inFile_operandOf_iff (tag : Bool) (val : Word W) :
    ¬ (operandOf tag val).inFile nreg = true ↔ tag = true ∧ nreg ≤ val.toNat := by
  rw [inFile_operandOf]; cases tag <;> simp

/-- R115: the first check. -/
theorem decode_illegalKind (h : 5 ≤ (kindField w).toNat) : decode nreg w = .error (.illegalKind (kindField w)) := by
  rw [decode, (Kind.ofCode_none_iff _).2 h]

/-- R116: the second check. -/
theorem decode_rsv_ne_zero (hk : Kind.ofCode (kindField w) = some k) (hr : rsvField w ≠ 0) :
    decode nreg w = .error .reservedBits := by
  simp only [decode, hk, if_pos hr]

/-- R116: the third check. -/
theorem decode_bField_ne_zero (hk : Kind.ofCode (kindField w) = some k) (hr : rsvField w = 0)
    (hone : k.oneOperand = true) (hb : bField w ≠ 0) : decode nreg w = .error .reservedBits := by
  have hfirst : ¬ rsvField w ≠ 0 := not_not.2 hr
  simp only [decode, hk, if_neg hfirst, if_pos (And.intro hone hb)]

/-- R117: the fourth check. -/
theorem decode_badRegister_A (hk : Kind.ofCode (kindField w) = some k) (hr : rsvField w = 0)
    (hb : k.oneOperand = true → bField w = 0) (ha : ¬ (operandA w).inFile nreg = true) :
    decode nreg w = .error (.badRegister .A) := by
  have hthird : ¬ (k.oneOperand = true ∧ bField w ≠ 0) := fun ⟨hone, hne⟩ => hne (hb hone)
  simp only [decode, hk, hr, ne_eq, not_true_eq_false, if_false, if_neg hthird, if_pos ha]

/-- R117: the fifth check. -/
theorem decode_badRegister_B (hk : Kind.ofCode (kindField w) = some k) (hr : rsvField w = 0)
    (htwo : k.oneOperand = false) (ha : (operandA w).inFile nreg = true) (hb : ¬ (operandB w).inFile nreg = true) :
    decode nreg w = .error (.badRegister .B) := by
  simp [decode, hk, hr, htwo, ha, hb]

/-- R68: the answer for a word of a two-operand kind whose checks pass. -/
theorem decode_two (hk : (kindField w).toNat = k.code.toNat) (htwo : k.oneOperand = false) (hr : rsvField w = 0)
    (ha : (operandA w).inFile nreg = true) (hb : (operandB w).inFile nreg = true) :
    decode nreg w = .ok (k.instr (operandA w) (operandB w)) :=
  decode_of_checks ((Kind.ofCode_eq_some_iff _ _).2 hk) hr (by simp [htwo]) ha fun _ => hb

/-- R68: the answer for a word of a one-operand kind whose checks pass. -/
theorem decode_one (hk : (kindField w).toNat = k.code.toNat) (hone : k.oneOperand = true) (hr : rsvField w = 0)
    (ha : (operandA w).inFile nreg = true) (hb : bField w = 0) :
    decode nreg w = .ok (k.instr (operandA w) (operandB w)) :=
  decode_of_checks ((Kind.ofCode_eq_some_iff _ _).2 hk) hr (fun _ => hb) ha (by simp [hone])

/-! ## The statements -/

/-- Settles O1, by `decode_encode`: an operand that fits is read back from its TAG and VAL. -/
theorem encodeThenDecodeGivesTheInstruction : Obligations.EncodeThenDecodeGivesTheInstruction :=
  fun _ _ _ hW hn h => decode_encode (by omega) hn h

/-- Settles O2: the fields of the word assembled from the decoded instruction are those of the word. -/
theorem decodeThenEncodeGivesTheWord : Obligations.DecodeThenEncodeGivesTheWord :=
  fun _ _ _ _ h => ⟨decode_wellFormed h, encode_of_decode h⟩

/-- Settles O3: a word of no kind is neither accepted nor well-formed; for a word of a kind, the decoder's checks are the
conditions of R64. -/
theorem wordDecodesExactlyWhenWellFormed : Obligations.WordDecodesExactlyWhenWellFormed := by
  intro W nreg w
  cases hk : Kind.ofCode (kindField w) with
  | none =>
    have hcode : 5 ≤ (kindField w).toNat := (Kind.ofCode_none_iff _).1 hk
    have hle : ¬ (kindField w).toNat ≤ 4 := by omega
    simp [decode_illegalKind hcode, wordWellFormed, hle]
  | some k => exact (decode_isOk_iff hk).trans (wordWellFormed_iff hk).symm

/-- Settles O4: each check of the decoder in its order, then its answer for each kind. -/
theorem decoderChecksInOrder : Obligations.DecoderChecksInOrder := by
  intro W nreg w kind oneOperand aBad bBad
  have ha : ¬ (operandA w).inFile nreg = true ↔ aBad := not_inFile_operandOf_iff ..
  have hb : ¬ (operandB w).inFile nreg = true ↔ bBad := not_inFile_operandOf_iff ..
  have hone {k : Kind} (hk : Kind.ofCode (kindField w) = some k) : k.oneOperand = true ↔ oneOperand :=
    Kind.oneOperand_iff_of_ofCode hk
  refine ⟨decode_illegalKind, fun hlt hr => ?rsv, fun hr h1 hB => ?bField, fun hlt hr hB hA => ?badA,
    fun h2 hr hA hB => ?badB, fun hr hA => ?pass, fun hW => if_pos hW, rfl, rfl, rfl⟩
  case rsv =>
    obtain ⟨k, hk⟩ := Kind.exists_of_code_lt hlt
    exact decode_rsv_ne_zero hk hr
  case bField =>
    obtain ⟨k, hk⟩ := Kind.exists_of_code_lt (c := kindField w) (by omega)
    exact decode_bField_ne_zero hk hr ((hone hk).2 h1) hB
  case badA =>
    obtain ⟨k, hk⟩ := Kind.exists_of_code_lt hlt
    exact decode_badRegister_A hk hr (fun h => hB ((hone hk).1 h)) (ha.2 hA)
  case badB =>
    obtain ⟨k, hk⟩ := Kind.exists_of_code_lt (c := kindField w) (by omega)
    have htwo : k.oneOperand = false := Bool.eq_false_iff.2 fun h => by have := (hone hk).1 h; omega
    exact decode_badRegister_B hk hr htwo (not_not.1 (hA ∘ ha.1)) (hb.2 hB)
  case pass =>
    have hinA : (operandA w).inFile nreg = true := not_not.1 (hA ∘ ha.1)
    have hinB (h : ¬ bBad) : (operandB w).inFile nreg = true := not_not.1 (h ∘ hb.1)
    exact ⟨fun hk hB => decode_two (k := .cpy) hk rfl hr hinA (hinB hB),
      fun hk hB => decode_one (k := .inc) hk rfl hr hinA hB,
      fun hk hB => decode_one (k := .dec) hk rfl hr hinA hB,
      fun hk hB => decode_two (k := .jnz) hk rfl hr hinA (hinB hB),
      fun hk hB => decode_one (k := .tgl) hk rfl hr hinA hB⟩

/-- Settles O6: the toggle keeps the number of operands, so the toggled word passes the same checks. -/
theorem toggledWordDecodesToToggledInstruction : Obligations.ToggledWordDecodesToToggledInstruction :=
  fun _ _ _ i h => ⟨i.kind, ofCode_kindField_of_decode h, decode_toggled h⟩

/-- Settles O5, by running the decoder on the five words. -/
theorem workedEncodingsDecode : Obligations.WorkedEncodingsDecode := by
  unfold Obligations.WorkedEncodingsDecode
  decide

end Sys2Proof
end

section
/-!
PROOFS. A run the host leaves alone computes the source's run (40_step.md R88, R92): the relation that every step of
such a run keeps.
-/

namespace Sys2Proof

open Machine

variable {W : Nat} {m : Source.Machine W} {s t : Record W}

/-- R88: a turn of the run loop with no STOP pending ends the run in a fault or in HALTED, or leaves the CORE RUNNING with
no STOP pending. -/
theorem tick_without_stop (hr : s.runState = .running) (hs : s.stopPending = false) (h : tick s = .next t.state) :
    t.runState = .faulted ∨ t.runState = .halted ∨ t.runState = .running ∧ t.stopPending = false := by
  rw [tick_running hr] at h
  cases hin : s.inProgram s.pc with
  | false =>
    rw [runStep_out hin] at h
    cases h
    exact .inr (.inl rfl)
  | true =>
    obtain ⟨u, -, hrun, he⟩ := runStep_inProgram hin
    rw [hrun] at h
    cases h
    rcases he.raised_or_completed with ⟨f, rfl⟩ | ⟨⟨-, hru, -, -, hsu, -⟩, -⟩
    · exact .inl (congrArg Record.runState (finishRunStep_faulted rfl))
    · have hf : u.runState ≠ .faulted := by simp [hru, hr]
      cases hin' : u.inProgram u.pc with
      | false => exact .inr (.inl (congrArg Record.runState (finishRunStep_halt hf hin')))
      | true =>
        rw [finishRunStep_go hf hin' (hsu.trans hs)]
        exact .inr (.inr ⟨hru.trans hr, hsu.trans hs⟩)

/-- R76: outside its program the source's machine stands still. -/
theorem Source.step_outside (h : ¬ (0 ≤ m.pc.toInt ∧ m.pc.toInt < m.prog.length)) : Source.step m = m := if_neg h

/-- What every state of a run that the host leaves alone satisfies: it holds the source's machine `m`, and it is RUNNING
with no STOP pending, or HALTED because the `pc` of `m` has left the program. -/
structure RunsAlone (m : Source.Machine W) (s : Record W) : Prop where
  holds : Source.Represents m s
  alone : s.port.pending = []
  phase : Inv s ∧ s.runState = .running ∧ s.stopPending = false ∨
    s.runState = .halted ∧ s.inProgram m.pc = false

/-- R79: RUNNING and HALTED tell whether the `pc` of the source's machine is in the program. -/
theorem RunsAlone.verdict (h : RunsAlone m s) :
    (s.inProgram m.pc = true → s.runState = .running) ∧ (s.inProgram m.pc = false → s.runState = .halted) := by
  rcases h.phase with ⟨hinv, hr, -⟩ | ⟨hr, hout⟩
  · have hin := hinv.running_pc hr
    rw [h.holds.pc_eq] at hin
    simp [hin, hr]
  · simp [hout, hr]

/-- One step of the run is one step of the source's machine. -/
theorem RunsAlone.step (h : RunsAlone m s) :
    ∃ t : Record W, Machine.step s.state = .next t.state ∧ RunsAlone (Source.step m) t := by
  have hstep := step_noAccess h.alone
  rcases h.phase with ⟨hinv, hr, hs⟩ | ⟨hr, hout⟩
  · obtain ⟨t, ht, hrep, hnf, hhalt⟩ := h.holds.tick_step hinv hr
    have hnext := hstep.trans ht
    refine ⟨t, hnext, hrep, by rw [step_pending hnext, h.alone, List.tail_nil], ?_⟩
    rcases tick_without_stop hr hs ht with hf | hh | hrun
    · exact absurd hf hnf
    · exact .inr ⟨hh, hhalt.1 hh⟩
    · exact .inl ⟨everyStepKeepsTheInvariant s.state t.state hinv hnext, hrun⟩
  · have hstill : Source.step m = m :=
      Source.step_outside (mt (h.holds.inProgram_iff m.pc).2 (by simp [hout]))
    rw [hstill]
    exact ⟨s, hstep.trans (tick_waiting (by simp [hr])), h⟩

/-- So is every number of steps. -/
theorem RunsAlone.run (h : RunsAlone m s) (n : Nat) :
    ∃ t : Record W, Host.Core.run core n s.state = .next t.state ∧ RunsAlone (Source.steps n m) t := by
  induction n generalizing m s with
  | zero => exact ⟨s, run_zero _, h⟩
  | succ n ih =>
    obtain ⟨t, ht, hnext⟩ := h.step
    rw [run_succ_of_step ht]
    exact ih hnext

/-- Settles O48: a RUNNING CORE with no STOP pending that holds the source's machine meets `RunsAlone`, which every number
of steps keeps and which gives the verdict. -/
theorem runComputesTheSourceRun : Obligations.RunComputesTheSourceRun := by
  intro W m s hinv hr hp hs hrep n
  have halone : RunsAlone m s := ⟨hrep, hp, .inl ⟨hinv, hr, hs⟩⟩
  obtain ⟨t, ht, h⟩ := halone.run n
  exact ⟨t, ht, h.holds, h.verdict⟩

end Sys2Proof
end

section
/-!
PROOFS. The sequencer: a turn of the run loop, the halt test, and the commands STEP and STOP (40_step.md R77, R79, R87,
R90, R91; 60_exceptions.md R118).
-/

namespace Sys2Proof.Machine

variable {W : Nat} {s t : Record W}

/-! ## One turn of the run loop -/

/-- Settles O29: `exec` answers a next state for every instruction, and the step is that and the run loop's check. -/
theorem stepRunsTheDecodedInstruction : Obligations.StepRunsTheDecodedInstruction := by
  intro W s rest i hr hcore hin hdec
  obtain ⟨t, ht, -⟩ := exec_effect (dropPending rest s) i
  exact ⟨t, ht, step_of_exec hr hcore hin hdec ht⟩

/-- Settles O51: a turn of the run loop outside the program ends the run. -/
theorem runningOutsideTheProgramHalts : Obligations.RunningOutsideTheProgramHalts := by
  intro W s rest hr hcore hout
  have htick : tick (dropPending rest s) = .next ((dropPending rest s).endRun .halted).state :=
    (tick_running (s := dropPending rest s) hr).trans (runStep_out hout)
  exact ⟨_, (step_core hcore).trans htick, rfl, rfl, ⟨rfl, rfl, rfl, rfl, rfl, rfl, rfl⟩⟩

/-! ## Commands -/

theorem command_singleStep {c : BitVec 3} (hc : c.toNat = 3) (hw : hostMayWrite s = true) :
    command c s = singleStep s := by
  simp [command, hc, hw]

theorem command_stop {c : BitVec 3} (hc : c.toNat = 4) (hr : s.runState = .running) : command c s = stop s := by
  simp [command, hc, hr]

/-- R87: the codes that name no command. -/
theorem command_unnamed {c : BitVec 3} (hc : c.toNat = 0 ∨ 5 ≤ c.toNat) : command c s = .next s.state := by
  unfold command
  split
  · omega
  · omega
  · omega
  · omega
  · rfl

/-- R87: RUN, RESUME and STEP where the host may not command. -/
theorem command_not_hostMayWrite {c : BitVec 3} (h1 : 1 ≤ c.toNat) (h3 : c.toNat ≤ 3) (hw : ¬ hostMayWrite s = true) :
    command c s = .next s.state := by
  obtain hc | hc | hc : c.toNat = 1 ∨ c.toNat = 2 ∨ c.toNat = 3 := by omega
  all_goals simp [command, hc, hw]

theorem command_stop_waiting {c : BitVec 3} (hc : c.toNat = 4) (hr : s.runState ≠ .running) :
    command c s = .next s.state := by
  simp [command, hc, hr]

/-- Settles O34: a code that names no command; RUN, RESUME or STEP in RUNNING or FAULTED; STOP outside RUNNING. -/
theorem unacceptedCommandsHaveNoEffect : Obligations.UnacceptedCommandsHaveNoEffect := by
  intro W s v rest hp h
  rw [step_command hp]
  rcases h with hnone | ⟨h1, h3, hr⟩ | ⟨h4, hr⟩
  · exact command_unnamed hnone
  · exact command_not_hostMayWrite h1 h3 (not_hostMayWrite hr)
  · exact command_stop_waiting h4 hr

/-! ## The halt test (R79) -/

theorem resume_out (hout : s.inProgram s.pc = false) : resume s = .next (s.endRun .halted).state := by
  simp [resume, hout]

theorem singleStep_out (hout : s.inProgram s.pc = false) : singleStep s = .next (s.endRun .halted).state := by
  simp [singleStep, hout]

/-- R79: no index is in a program of length 0. -/
theorem not_inProgram_of_empty (h : s.plen = 0) (v : Word W) : s.inProgram v = false := by
  rw [not_inProgram_iff]
  omega

/-- Settles O31: RUN at index 0 of an empty program, RESUME and STEP outside the program, and the run loop's check after
an instruction that left it. -/
theorem haltTestStopsWithoutFetching : Obligations.HaltTestStopsWithoutFetching := by
  refine ⟨?run, ?resumeOrStep, ?runLoop⟩
  case run =>
    intro W s v rest hwait hp hc hlen
    have hrun : command (v.extractLsb' 0 3) (dropPending rest s) = run (dropPending rest s) :=
      command_run hc ((hostMayWrite_iff s).2 hwait)
    have hhalt := resume_out (s := (dropPending rest s).withPc 0) (not_inProgram_of_empty hlen 0)
    exact ⟨_, (step_command hp).trans (hrun.trans hhalt), rfl, ⟨rfl, rfl, rfl, rfl, rfl, rfl, rfl⟩⟩
  case resumeOrStep =>
    intro W s v rest hwait hp hc hout
    have hw : hostMayWrite (dropPending rest s) = true := (hostMayWrite_iff s).2 hwait
    have hhalt : command (v.extractLsb' 0 3) (dropPending rest s) =
        .next ((dropPending rest s).endRun .halted).state := by
      rcases hc with hc | hc
      · exact (command_resume hc hw).trans (resume_out hout)
      · exact (command_singleStep hc hw).trans (singleStep_out hout)
    exact ⟨_, (step_command hp).trans hhalt, rfl, ⟨rfl, rfl, rfl, rfl, rfl, rfl, rfl⟩⟩
  case runLoop =>
    intro W s t rest i hr hcore hin hdec hexec hf hout
    refine ⟨_, step_of_exec hr hcore hin hdec hexec, ?_, (finishRunStep_sameData t).1⟩
    rw [finishRunStep_halt hf hout]
    rfl

/-! ## STEP (R90) -/

theorem finishSingleStep_idle (hf : t.runState ≠ .faulted) (hin : t.inProgram t.pc = true) :
    finishSingleStep t = t.endRun .idle := by
  simp [finishSingleStep, hf, hin]

theorem finishSingleStep_halt (hf : t.runState ≠ .faulted) (hout : t.inProgram t.pc = false) :
    finishSingleStep t = t.endRun .halted := by
  simp [finishSingleStep, hf, hout]

/-- R90: a STEP in a written program is one `Step()` and what the command does after it. -/
theorem step_of_stepCommand {v : Word W} {rest : List (HostAccess W)} (hwait : s.runState = .idle ∨ s.runState = .halted)
    (hp : s.port.pending = .writeControl 6 v :: rest) (hc : commandCode v = 3) (hwr : s.programWritten = true)
    (hin : s.inProgram s.pc = true) (hperform : performStep (dropPending rest s) = .next t.state) :
    step s.state = .next (finishSingleStep t).state := by
  have hw : hostMayWrite (dropPending rest s) = true := (hostMayWrite_iff s).2 hwait
  have hsingle : singleStep (dropPending rest s) = onRecord finishSingleStep (performStep (dropPending rest s)) :=
    (if_neg (not_not.2 hin)).trans (if_neg (not_not.2 hwr))
  rw [step_command hp, command_singleStep hc hw, hsingle, hperform, onRecord_next]

/-- Settles O33: the instruction's effect, and the three ends of a STEP. -/
theorem stepCommandExecutesOneInstruction : Obligations.StepCommandExecutesOneInstruction := by
  intro W s v rest i hwait hp hc hwr hin hdec
  obtain ⟨t, ht, -⟩ := exec_effect (dropPending rest s) i
  have hperform : performStep (dropPending rest s) = .next t.state :=
    (performStep_ok (s := dropPending rest s) hdec).trans ht
  refine ⟨t, _, ht, step_of_stepCommand hwait hp hc hwr hin hperform, finishSingleStep_sameData t, ?_, ?_, ?_⟩
  · intro hf
    rw [finishSingleStep_faulted hf]
    exact hf
  · intro hf hin'
    rw [finishSingleStep_idle hf hin']
    rfl
  · intro hf hout
    rw [finishSingleStep_halt hf hout]
    rfl

/-- R109, R115 to R118: the `Step()` of an instruction that raises a fault, at decode or in a toggle, is the fault's
entry. -/
theorem performStep_of_raises {f : CoreFault W} (h : Raises s f) : performStep s = .next (raise f s).state := by
  rcases h with herr | ⟨x, hdec, hin, hkind, rfl⟩
  · exact performStep_error herr
  · exact (performStep_ok hdec).trans
      (exec_tgl_unmapped (decode_registersExist hdec) hin ((Kind.ofCode_none_iff _).2 hkind))

/-- Settles O50: the fault's entry is all that the STEP does. -/
theorem stepCommandFaultEntryIsPrecise : Obligations.StepCommandFaultEntryIsPrecise := by
  intro W s v rest f hwait hp hc hwr hin hf
  have hperform := performStep_of_raises (s := dropPending rest s) hf
  have hstep := step_of_stepCommand hwait hp hc hwr hin hperform
  rw [finishSingleStep_faulted (raise_runState _ f)] at hstep
  exact ⟨_, hstep, rfl, rfl, rfl, rfl, rfl, rfl, rfl, rfl⟩

/-! ## STOP (R91) -/

/-- R91: the run loop's check after an instruction begun with a STOP pending leaves RUNNING, and no STOP pends then. -/
theorem finishRunStep_with_stop (he : Effect s t) (hr : s.runState = .running) (hs : s.stopPending = true) :
    (finishRunStep t).runState ≠ .running ∧ (finishRunStep t).stopPending = false := by
  rcases he.raised_or_completed with ⟨f, rfl⟩ | ⟨⟨-, hrt, -, -, hst, -⟩, -⟩
  · rw [finishRunStep_faulted (raise_runState s f)]
    simp
  · have hf : t.runState ≠ .faulted := by simp [hrt, hr]
    cases hin : t.inProgram t.pc with
    | false => simp [finishRunStep_halt hf hin]
    | true => simp [finishRunStep_stop hf hin (hst.trans hs)]

/-- R91: the write of STOP while RUNNING latches it, and does nothing else. -/
theorem step_of_stopCommand {v : Word W} {rest : List (HostAccess W)} (hr : s.runState = .running)
    (hp : s.port.pending = .writeControl 6 v :: rest) (hc : commandCode v = 4) :
    step s.state = .next ((dropPending rest s).withStop true).state :=
  (step_command hp).trans (command_stop (s := dropPending rest s) hc hr)

/-- With nothing to come, or an entry for the CORE first, the next step is the CORE's. -/
theorem coreIsNext_of_head {rest : List (HostAccess W)} (hp : s.port.pending = rest)
    (h : rest = [] ∨ rest.head? = some .tick) : CoreIsNext s rest.tail := by
  rcases h with rfl | h
  · exact .inl ⟨hp, rfl⟩
  · exact .inr (hp.trans (List.eq_cons_of_mem_head? h))

/-- Settles O35: the STOP is latched, and the instruction after it runs to the check that ends the run. -/
theorem stopEndsTheRunAfterOneStep : Obligations.StopEndsTheRunAfterOneStep := by
  intro W s v rest i hr hp hc hrest hin hdec
  have hcore : CoreIsNext ((dropPending rest s).withStop true) rest.tail := coreIsNext_of_head rfl hrest
  obtain ⟨z, hz, he⟩ := exec_effect (dropPending rest.tail ((dropPending rest s).withStop true)) i
  obtain ⟨hleft, hclear⟩ := finishRunStep_with_stop he hr rfl
  exact ⟨_, _, z, step_of_stopCommand hr hp hc, hr, rfl, ⟨rfl, rfl, rfl, rfl, rfl, rfl, rfl⟩, hz,
    step_of_exec hr hcore hin hdec hz, hleft, hclear, (finishRunStep_sameData z).1⟩

end Sys2Proof.Machine
end

section
/-!
PROOFS. What holds of every instruction: next-pc sums (40_step.md R80), one register named twice (R82), missing
registers (R83).
-/

namespace Sys2Proof.Machine

variable {W : Nat} {s : Record W}

/-- R80: a sum below the signed range's end is exact; one past it is past every program, and wraps to a negative
value. -/
theorem inProgram_add_iff (hW : 0 < W) (hl : s.plen ≤ 2 ^ (W - 1)) {u : Word W} (hu : s.inProgram u = true)
    (v : Word W) :
    s.inProgram (u + v) = true ↔ 0 ≤ u.toInt + v.toInt ∧ u.toInt + v.toInt < s.plen := by
  obtain ⟨hu0, hu1⟩ := (inProgram_iff s u).1 hu
  have hv0 := BitVec.le_toInt v
  have hv1 : v.toInt < 2 ^ (W - 1) := BitVec.toInt_lt
  have hpow : ((2 ^ W : Nat) : Int) = 2 * 2 ^ (W - 1) := by
    rw [← mul_pow_sub_one hW.ne']
    push_cast
    rfl
  have hl' : (s.plen : Int) ≤ 2 ^ (W - 1) := by exact_mod_cast hl
  rw [inProgram_iff, BitVec.toInt_add]
  by_cases hsum : u.toInt + v.toInt < 2 ^ (W - 1)
  · rw [Int.bmod_eq_of_le_mul_two (by omega) (by omega)]
  · rw [← Int.sub_bmod_right, Int.bmod_eq_of_le_mul_two (by omega) (by omega)]
    omega

/-- Settles O15: the third clause is the second at the exact value 1, and a sum of two indices is not negative. -/
theorem wrappedPcGivesTheExactHaltVerdict : Obligations.WrappedPcGivesTheExactHaltVerdict := by
  intro W s v hW hl hin
  refine ⟨BitVec.toInt_add .., inProgram_add_iff (by omega) hl hin v, ?_⟩
  obtain ⟨hpc, -⟩ := (inProgram_iff s s.pc).1 hin
  have hone : (1 : Word W).toInt = 1 := BitVec.toInt_one hW
  rw [inProgram_add_iff (by omega) hl hin, hone]
  omega

/-- R114: the information of BAD_REGISTER tells the slots apart, as a register of one bit can. -/
theorem faultInfo_badRegister (hW : 0 < W) (slot : Slot) :
    (faultInfo (W := W) (.badRegister slot) = 0 ∨ faultInfo (W := W) (.badRegister slot) = 1) ∧
      (faultInfo (W := W) (.badRegister slot) = 1 ↔ slot = .B) := by
  cases slot with
  | A =>
    have hne : (0 : Word W) ≠ 1 := mt (BitVec.zero_eq_one_iff W).1 hW.ne'
    exact ⟨.inl rfl, iff_of_false hne (by simp)⟩
  | B => exact ⟨.inr rfl, iff_of_true rfl rfl⟩

/-- Settles O25: the fault entry of `exec_bad`, whose slot FINFO tells. -/
theorem missingRegisterRaisesBadRegister : Obligations.MissingRegisterRaisesBadRegister := by
  intro W i s hW hbad
  obtain ⟨slot, ht, hslot⟩ := exec_bad s hbad
  obtain ⟨hinfo, hB⟩ := faultInfo_badRegister (W := W) (by omega) slot
  exact ⟨_, ht, rfl, rfl, rfl, rfl, rfl, rfl, hinfo, hB.trans hslot⟩

/-- Settles O12: `cpy r r` writes back the value `r` holds, and both operands of `jnz r r` have it. -/
theorem cpyAndJnzOfOneRegisterTwice : Obligations.CpyAndJnzOfOneRegisterTwice := by
  intro W r s hr
  have hreg : (Operand.reg r).inFile s.nreg = true := decide_eq_true hr
  constructor
  · have hself : writeIfReg (.reg r) (val (.reg r) s) s = s := writeX_readX s r
    exact ⟨_, exec_cpy hreg hreg, by rw [hself, Record.advance_x]⟩
  · intro hne
    exact ⟨_, exec_jnz_taken hreg hreg hne, rfl⟩

end Sys2Proof.Machine
end

section
/-!
PROOFS. `cpy`, `inc` and `dec` (41_alu.md): each is one write through an operand and then the next instruction; what
such a write gives and what it leaves alone.
-/

namespace Sys2Proof.Machine

variable {W : Nat} {s : Record W} {a : Operand}

/-! ## A write through an operand, then the next instruction -/

theorem writeIfReg_advance_pc (op : Operand) (v : Word W) (s : Record W) :
    (writeIfReg op v s).advance.pc = s.pc + 1 := by
  cases op <;> rfl

/-- R86: the register the operand names, if it exists, holds the value. -/
theorem readX_writeIfReg_advance {op : Operand} (h : op.inFile s.nreg = true) (v : Word W) {i : Nat}
    (hi : op = .reg i) : (writeIfReg op v s).advance.readX i = v := by
  subst hi
  exact readX_writeX_same s (of_decide_eq_true h) v

/-- R17, R86: what such a write leaves alone. -/
theorem writeIfReg_advance_frame (op : Operand) (v : Word W) (s : Record W) :
    (∀ j, op ≠ .reg j → (writeIfReg op v s).advance.readX j = s.readX j) ∧
      SameProgram s (writeIfReg op v s).advance ∧ SameControl s (writeIfReg op v s).advance := by
  cases op with
  | imm k => exact ⟨fun _ _ => rfl, fun _ => rfl, rfl, rfl, rfl, rfl, rfl, rfl, rfl, rfl⟩
  | reg r =>
    refine ⟨fun j hj => readX_writeX_other s ?_ v, fun _ => rfl, rfl, rfl, rfl, rfl, rfl, writeX_nreg s r v, rfl, rfl⟩
    rintro rfl
    exact hj rfl

theorem writeIfReg_advance_one_register (op : Operand) (v : Word W) (s : Record W) :
    ∃ r, ∀ j, j ≠ r → (writeIfReg op v s).advance.readX j = s.readX j := by
  cases op with
  | imm k => exact ⟨0, fun _ _ => rfl⟩
  | reg r => exact ⟨r, fun j hj => readX_writeX_other s hj v⟩

/-- R17: overwriting a register and then writing back the value it held restores every register. -/
theorem writeIfReg_write_back {r : Nat} {v : Word W} (hv : v = s.readX r) (u : Word W) :
    (writeIfReg (.reg r) v (writeIfReg (.reg r) u s).advance).advance.x = s.x := by
  have hback : ((s.writeX r u).writeX r v).x = s.x := by rw [writeX_writeX, hv, writeX_readX]
  exact hback

/-! ## The three instructions as such a write -/

theorem exec_inc_eq_write (ha : a.inFile s.nreg = true) :
    exec (.inc a) s.state = .next (writeIfReg a (val a s + 1) s).advance.state := by
  rw [exec_inc ha, updateIfReg_eq_writeIfReg]

theorem exec_dec_eq_write (ha : a.inFile s.nreg = true) :
    exec (.dec a) s.state = .next (writeIfReg a (val a s - 1) s).advance.state := by
  rw [exec_dec ha, updateIfReg_eq_writeIfReg]

theorem exec_alu_eq_write {i : Instr} (halu : (∃ a b, i = .cpy a b) ∨ (∃ a, i = .inc a) ∨ (∃ a, i = .dec a))
    (hreg : i.registersExist s.nreg = true) :
    ∃ op v, exec i s.state = .next (writeIfReg op v s).advance.state := by
  rcases halu with ⟨a, b, rfl⟩ | ⟨a, rfl⟩ | ⟨a, rfl⟩
  · obtain ⟨ha, hb⟩ := Bool.and_eq_true_iff.1 hreg
    exact ⟨b, _, exec_cpy ha hb⟩
  · exact ⟨a, _, exec_inc_eq_write hreg⟩
  · exact ⟨a, _, exec_dec_eq_write hreg⟩

/-! ## The obligations -/

/-- Settles O11: the second instruction writes back the value the register held, since adding and subtracting one modulo
`2^W` are inverse to each other. -/
theorem incAndDecUndoEachOther : Obligations.IncAndDecUndoEachOther := by
  intro W r s hr
  have hs : (Operand.reg r).inFile s.nreg = true := decide_eq_true hr
  have ht (v : Word W) : (Operand.reg r).inFile (writeIfReg (.reg r) v s).advance.nreg = true := by
    rw [writeIfReg_reg, advance_nreg, writeX_nreg, hs]
  constructor
  · refine ⟨_, _, exec_inc_eq_write hs, exec_dec_eq_write (ht _), writeIfReg_write_back ?_ _, rfl⟩
    rw [val_reg, readX_writeIfReg_advance hs _ rfl, val_reg, BitVec.add_sub_cancel]
  · refine ⟨_, _, exec_dec_eq_write hs, exec_inc_eq_write (ht _), writeIfReg_write_back ?_ _, rfl⟩
    rw [val_reg, readX_writeIfReg_advance hs _ rfl, val_reg, BitVec.sub_add_cancel]

/-- Settles O7: by what the write through the destination gives and leaves alone. -/
theorem cpyCopiesTheValue : Obligations.CpyCopiesTheValue := by
  intro W src dst s hsrc hdst
  exact ⟨_, exec_cpy hsrc hdst, writeIfReg_advance_pc dst _ s, fun _ => readX_writeIfReg_advance hdst _,
    writeIfReg_advance_frame dst _ s⟩

/-- Settles O8: W-bit addition is addition of the signed readings modulo `2^W`. -/
theorem incAddsOneModulo : Obligations.IncAddsOneModulo := by
  intro W x s hW hx
  refine ⟨_, exec_inc_eq_write hx, writeIfReg_advance_pc x _ s, fun i hi => ?_, writeIfReg_advance_frame x _ s⟩
  have hone : (1 : Word W).toInt = 1 := BitVec.toInt_one hW
  rw [readX_writeIfReg_advance hx _ hi, hi, val_reg, BitVec.toInt_add, hone]

/-- Settles O9: W-bit subtraction is subtraction of the signed readings modulo `2^W`. -/
theorem decSubtractsOneModulo : Obligations.DecSubtractsOneModulo := by
  intro W x s hW hx
  refine ⟨_, exec_dec_eq_write hx, writeIfReg_advance_pc x _ s, fun i hi => ?_, writeIfReg_advance_frame x _ s⟩
  have hone : (1 : Word W).toInt = 1 := BitVec.toInt_one hW
  rw [readX_writeIfReg_advance hx _ hi, hi, val_reg, BitVec.toInt_sub, hone]

/-- Settles O10: each of the three is one write through an operand. -/
theorem aluChangesAtMostOneRegister : Obligations.AluChangesAtMostOneRegister := by
  intro W i s halu hreg
  obtain ⟨op, v, ht⟩ := exec_alu_eq_write halu hreg
  obtain ⟨-, hprog, hplen, hrun, hcause, hfinfo, -⟩ := writeIfReg_advance_frame op v s
  exact ⟨_, ht, writeIfReg_advance_pc op v s, hprog, hplen, hrun, hcause, hfinfo,
    writeIfReg_advance_one_register op v s⟩

end Sys2Proof.Machine
end

section
/-!
PROOFS. `jnz` (42_branch.md): where it goes and what it leaves alone (R100), its target (R101), and the taken branch to
itself, which hangs (R102; 40_step.md R92).
-/

namespace Sys2Proof.Machine

variable {W : Nat} {s : Record W} {x y : Operand}

/-! ## Where a branch goes -/

/-- R100: a branch writes `pc` only. -/
theorem withPc_frame (s : Record W) (v : Word W) :
    (s.withPc v).x = s.x ∧ SameProgram s (s.withPc v) ∧ SameControl s (s.withPc v) :=
  ⟨rfl, fun _ => rfl, rfl, rfl, rfl, rfl, rfl, rfl, rfl, rfl⟩

/-- Settles O13: both outcomes are a write of `pc`. -/
theorem jnzBranchesOnNonZero : Obligations.JnzBranchesOnNonZero := by
  intro W x y s hx hy
  by_cases hz : val x s = 0
  · exact ⟨_, exec_jnz_zero hx hy hz, fun _ => rfl, fun hne => absurd hz hne, withPc_frame s _⟩
  · exact ⟨_, exec_jnz_taken hx hy hz, fun h0 => absurd h0 hz, fun _ => rfl, withPc_frame s _⟩

/-- R65: the condition `Imm(1)` is not zero, since a word has at least one bit. -/
theorem val_imm_one_ne_zero (hW : 0 < W) (s : Record W) : val (.imm 1) s ≠ 0 := by
  rw [val_imm, BitVec.ofInt_ofNat]
  exact mt (BitVec.one_eq_zero_iff (w := W)).1 hW.ne'

/-- Settles O14: the examples and the second law are taken branches, the first law one that is not. -/
theorem jnzTargetIsRelativeToItself : Obligations.JnzTargetIsRelativeToItself := by
  intro W s hW
  have taken (x y : Operand) (hx : x.inFile s.nreg = true) (hy : y.inFile s.nreg = true) (hne : val x s ≠ 0) :
      ∃ t : Record W, exec (.jnz x y) s.state = .next t.state ∧ t.pc = s.pc + val y s :=
    ⟨_, exec_jnz_taken hx hy hne, rfl⟩
  have hone : val (.imm 1) s ≠ 0 := val_imm_one_ne_zero (by omega) s
  refine ⟨taken, ?_, ?_, ?_, ?_⟩
  · simpa using taken (.imm 1) (.imm 1) rfl rfl hone
  · simpa [BitVec.ofInt_neg, BitVec.sub_eq_add_neg] using taken (.imm 1) (.imm (-1)) rfl rfl hone
  · exact fun y hy => ⟨_, exec_jnz_zero rfl hy (by simp), rfl⟩
  · exact fun r n hr hne => taken (.reg r) (.imm n) (decide_eq_true hr) rfl hne

/-! ## The branch to itself -/

/-- R102: the CORE is RUNNING with no STOP and no host access to come, at a taken `jnz x y` whose offset is zero. -/
structure AtSelfBranch (x y : Operand) (s : Record W) : Prop where
  running : s.runState = .running
  alone : s.port.pending = []
  noStop : s.stopPending = false
  inProgram : s.inProgram s.pc = true
  fetched : decode s.nreg s.fetch = .ok (.jnz x y)
  taken : val x s ≠ 0
  offset : val y s = 0

/-- R88: the step of a branch to itself only adds a boundary to the run. -/
theorem AtSelfBranch.step (h : AtSelfBranch x y s) : step s.state = .next s.markBoundary.state := by
  obtain ⟨hx, hy⟩ := Bool.and_eq_true_iff.1 (decode_registersExist h.fetched)
  have hstay : s.withPc (s.pc + val y s) = s := by simp [h.offset, Record.withPc]
  have hexec : exec (.jnz x y) s.state = .next s.state := (exec_jnz_taken hx hy h.taken).trans (next_congr hstay)
  have hgo : finishRunStep s = s.markBoundary := finishRunStep_go (by simp [h.running]) h.inProgram h.noStop
  exact (step_of_exec_alone h.running h.alone h.inProgram h.fetched hexec).trans (next_congr hgo)

theorem val_markBoundary (op : Operand) (s : Record W) : val op s.markBoundary = val op s := by cases op <;> rfl

/-- R102: the CORE is at the same branch again. -/
theorem AtSelfBranch.markBoundary (h : AtSelfBranch x y s) : AtSelfBranch x y s.markBoundary :=
  { h with
    taken := (val_markBoundary x s).trans_ne h.taken
    offset := (val_markBoundary y s).trans h.offset }

/-- R102: so it is after every number of steps, with the same `pc`, registers and program. -/
theorem AtSelfBranch.run (h : AtSelfBranch x y s) (n : Nat) :
    ∃ t : Record W, Host.Core.run core n s.state = .next t.state ∧ AtSelfBranch x y t ∧ t.pc = s.pc ∧ t.x = s.x ∧
      t.prog = s.prog := by
  induction n generalizing s with
  | zero => exact ⟨s, run_zero _, h, rfl, rfl, rfl⟩
  | succ n ih =>
    rw [run_succ_of_step h.step]
    exact ih h.markBoundary

/-- Settles O16: every step of the run ends where it began. -/
theorem selfBranchHangs : Obligations.SelfBranchHangs := by
  intro W s x y hr hp hs hin hdec hx hy n
  obtain ⟨t, ht, hat, hsame⟩ := AtSelfBranch.run ⟨hr, hp, hs, hin, hdec, hx, hy⟩ n
  exact ⟨t, ht, hat.running, hsame⟩

end Sys2Proof.Machine
end

section
/-!
PROOFS. `tgl` (43_toggle.md): the toggle map (R108, R110), and the three outcomes of a toggle, on a word of the program
with a kind (R107), outside the program (R106), and on a word with no kind (R109).
-/

namespace Sys2Proof.Machine

variable {W : Nat} {i : Instr} {s t : Record W}

/-! ## The toggle map -/

/-- R110: a toggled kind is below `tgl` and below the codes that name no instruction. -/
theorem code_toggle_lt (k : Kind) : (toggle k).code.toNat < Kind.tgl.code.toNat := by cases k <;> decide

theorem toggle_ne_tgl (k : Kind) : toggle k ≠ .tgl := by
  intro h
  have hlt := code_toggle_lt k
  rw [h] at hlt
  exact Nat.lt_irrefl _ hlt

/-- Settles O20, row by row. -/
theorem toggleMapIsTheTable : Obligations.ToggleMapIsTheTable :=
  ⟨rfl, rfl, rfl, rfl, rfl, rfl, rfl, rfl, rfl, rfl⟩

/-- Settles O21: `tgl` is the kind that toggling twice does not bring back. -/
theorem toggleMapIsNotAnInvolution : Obligations.ToggleMapIsNotAnInvolution := by
  refine ⟨rfl, rfl, rfl, rfl, rfl, rfl, toggle_ne_tgl, ?_⟩
  intro h
  exact toggle_ne_tgl _ (h .tgl)

/-! ## What an instruction leaves in a word -/

/-- R57, R107: every word is kept, or has a kind and gets the one the toggle map gives. -/
theorem CleanEffect.word_kept_or_toggled (h : CleanEffect i s t) (j : Nat) : t.word j = s.word j ∨
    ∃ k, Kind.ofCode (kindField (s.word j)) = some k ∧ t.word j = setKindField (s.word j) (toggle k).code := by
  cases h with
  | toggled o k hi hin hk =>
    rw [advance_word, toggleKind_word]
    by_cases hj : j = (toggleTarget o s).toNat
    · subst hj
      exact .inr ⟨k, hk, if_pos rfl⟩
    · exact .inl (if_neg hj)
  | wrote | branched | unmapped => exact .inl rfl

theorem exec_word_kept_or_toggled (i : Instr) (s : Record W) : ∃ t : Record W, exec i s.state = .next t.state ∧
    ∀ j, t.word j = s.word j ∨
      ∃ k, Kind.ofCode (kindField (s.word j)) = some k ∧ t.word j = setKindField (s.word j) (toggle k).code := by
  cases hreg : i.registersExist s.nreg with
  | false =>
    obtain ⟨slot, ht, -⟩ := exec_bad s hreg
    exact ⟨_, ht, fun _ => .inl rfl⟩
  | true =>
    obtain ⟨t, ht, hc⟩ := exec_clean s hreg
    exact ⟨t, ht, hc.word_kept_or_toggled⟩

/-- Settles O22: a word that changes gets a toggled kind, whose code is below 4. -/
theorem togglingMakesNoToggleAndNoIllegalKind : Obligations.TogglingMakesNoToggleAndNoIllegalKind := by
  intro W i s
  obtain ⟨t, ht, hword⟩ := exec_word_kept_or_toggled i s
  refine ⟨t, ht, fun j => ?_⟩
  obtain hkept | ⟨k, -, htoggled⟩ := hword j
  · exact ⟨fun h => hkept ▸ h, fun _ => hkept⟩
  · have hlt : (kindField (t.word j)).toNat < 4 := by
      rw [htoggled, kindField_setKindField]
      exact code_toggle_lt k
    exact ⟨fun h => absurd hlt (by rw [h]; decide), fun h => absurd hlt (by omega)⟩

/-! ## The outcomes of a toggle -/

/-- R107: a toggle that completes writes the program store and `pc` only. -/
theorem toggleKind_advance_frame (s : Record W) (k : Nat) (c : BitVec 3) :
    (s.toggleKind k c).advance.x = s.x ∧ SameControl s (s.toggleKind k c).advance :=
  ⟨rfl, rfl, rfl, rfl, rfl, rfl, rfl, rfl, rfl⟩

/-- Settles O17: the toggle replaces the KIND field of one word, and `pc` advances. -/
theorem tglRewritesOnlyTheTargetKind : Obligations.TglRewritesOnlyTheTargetKind := by
  intro W x s k hx hin hk
  refine ⟨_, exec_tgl_toggles hx hin hk, rfl, ?_, ?_, fun j hj => ?_, toggleKind_advance_frame s _ _⟩
  · rw [advance_word, toggleKind_word, if_pos rfl, kindField_setKindField]
  · rw [advance_word, toggleKind_word, if_pos rfl]
    exact sameButKind_setKindField _ _
  · rw [advance_word, toggleKind_word, if_neg hj]

/-- Settles O18: such a toggle is a write of `pc` only. -/
theorem tglOutOfRangeChangesNothing : Obligations.TglOutOfRangeChangesNothing := by
  intro W x s hx hout
  exact ⟨_, exec_tgl_out hx hout, rfl, withPc_frame s _⟩

/-- Settles O19: the fault's entry is all that the toggle does. -/
theorem tglOfNoKindFaults : Obligations.TglOfNoKindFaults := by
  intro W x s hx hin hkind
  exact ⟨_, exec_tgl_unmapped hx hin ((Kind.ofCode_none_iff _).2 hkind), rfl, rfl, rfl, rfl, rfl, rfl, rfl⟩

end Sys2Proof.Machine
end

section
/-!
PROOFS. Faults (60_exceptions.md): the codes (R114), the entry of a fault in the run loop and the evidence it leaves
(R118), and what lasts until reset (R121).
-/

namespace Sys2Proof.Machine

variable {W : Nat} {i : Instr} {s t : Record W}

/-! ## The evidence of a fault (R118) -/

/-- R93 to R109: a decoded instruction raises the fault of `Raises`, or STATE stays as it is. -/
theorem CleanEffect.raises_or_keeps_runState (hdec : decode s.nreg s.fetch = .ok i) (h : CleanEffect i s t) :
    (∃ f, Raises s f ∧ t = raise f s) ∨ t.runState = s.runState := by
  cases h with
  | unmapped o hi hin hk =>
    subst hi
    exact .inl ⟨_, .inr ⟨o, hdec, hin, (Kind.ofCode_none_iff _).1 hk, rfl⟩, rfl⟩
  | wrote | branched | toggled => exact .inr rfl

/-- R77, R118: a `Step()` is the entry of the fault that the instruction at `pc` raises, or STATE stays as it is. -/
theorem performStep_raises_or_keeps_runState (h : performStep s = .next t.state) :
    (∃ f, Raises s f ∧ t = raise f s) ∨ t.runState = s.runState := by
  cases hdec : decode s.nreg s.fetch with
  | error f =>
    rw [performStep_error hdec] at h
    cases h
    exact .inl ⟨f, .inl hdec, rfl⟩
  | ok i =>
    obtain ⟨u, hu, hc⟩ := exec_clean s (decode_registersExist hdec)
    rw [performStep_ok hdec, hu] at h
    cases h
    exact hc.raises_or_keeps_runState hdec

theorem faultEvidence_of_ne_faulted (h : s.runState ≠ .faulted) : FaultEvidence s := fun hf => absurd hf h

/-- R118: fault entry keeps all that the fault was raised from. -/
theorem faultEvidence_raise {f : CoreFault W} (hin : s.inProgram s.pc = true) (hf : Raises s f) :
    FaultEvidence (raise f s) :=
  fun _ => ⟨hin, f, hf, rfl, rfl⟩

theorem faultEvidence_of_performStep (hr : s.runState ≠ .faulted) (hin : s.inProgram s.pc = true)
    (h : performStep s = .next t.state) : FaultEvidence t := by
  obtain ⟨f, hf, rfl⟩ | hkeep := performStep_raises_or_keeps_runState h
  · exact faultEvidence_raise hin hf
  · exact faultEvidence_of_ne_faulted (hkeep ▸ hr)

/-- R88: when the machine is FAULTED after the run loop's check, the check did nothing. -/
theorem finishRunStep_eq_of_faulted (hf : (finishRunStep t).runState = .faulted) : finishRunStep t = t := by
  refine finishRunStep_faulted ?_
  unfold finishRunStep at hf
  split_ifs at hf with h
  · exact h
  · cases hf
  · exact hf
  · cases hf

/-- R90: when the machine is FAULTED after a STEP command, the command did nothing after its instruction. -/
theorem finishSingleStep_eq_of_faulted (hf : (finishSingleStep t).runState = .faulted) : finishSingleStep t = t := by
  refine finishSingleStep_faulted ?_
  unfold finishSingleStep at hf
  split_ifs at hf with h
  · exact h
  · cases hf
  · cases hf

theorem faultEvidence_of_eq_of_faulted (h : FaultEvidence s) (ht : t.runState = .faulted → t = s) :
    FaultEvidence t := by
  intro hf
  obtain rfl := ht hf
  exact h hf

/-- A step leaves a FAULTED machine as it is but for the host's side, or resets it; any other machine becomes FAULTED
only by an instruction, which leaves its evidence. -/
theorem StepEffect.keeps_faultEvidence (h : FaultEvidence s) (he : StepEffect s t) : FaultEvidence t := by
  cases he with
  | unchanged => exact h
  | answered r => exact h
  | wrotePc hw | wrotePlen hw | wroteX hw | wroteP hw =>
    exact faultEvidence_of_ne_faulted (not_faulted_of_hostMayWrite hw)
  | stopLatched hr => exact faultEvidence_of_ne_faulted (by simp [hr])
  | reset | halted | launched => exact faultEvidence_of_ne_faulted (by simp)
  | ran hr hin u hu =>
    exact faultEvidence_of_eq_of_faulted (faultEvidence_of_performStep (by simp [hr]) hin hu)
      finishRunStep_eq_of_faulted
  | singleStepped hw hin hwr u hu =>
    exact faultEvidence_of_eq_of_faulted (faultEvidence_of_performStep (not_faulted_of_hostMayWrite hw) hin hu)
      finishSingleStep_eq_of_faulted

theorem faultEvidence_dropPending (h : FaultEvidence s) (rest : List (HostAccess W)) :
    FaultEvidence (dropPending rest s) :=
  h

/-- Settles O46: by the effects a step can have; only an instruction of the run loop or of a STEP enters FAULTED. -/
theorem everyStepKeepsTheFaultEvidence : Obligations.EveryStepKeepsTheFaultEvidence := by
  intro s t h hstep
  obtain ⟨u, rfl, hu⟩ := step_effect hstep
  exact hu.keeps_faultEvidence (faultEvidence_dropPending h _)

/-! ## Fault entry in the run loop (R118) -/

/-- R88, R118: a turn of the run loop whose instruction raises a fault is the fault's entry. -/
theorem runStep_of_raises {f : CoreFault W} (hin : s.inProgram s.pc = true) (hf : Raises s f) :
    runStep s = .next (raise f s).state := by
  rw [runStep, if_pos hin, performStep_of_raises hf, onRecord_next, finishRunStep_faulted (raise_runState s f)]

/-- Settles O27: the fault's entry is all that the turn of the run loop does. -/
theorem faultEntryIsPrecise : Obligations.FaultEntryIsPrecise := by
  intro W s rest f hr hcore hin hf
  have htick : tick (dropPending rest s) = .next (raise f (dropPending rest s)).state :=
    (tick_running (s := dropPending rest s) hr).trans (runStep_of_raises hin hf)
  exact ⟨_, (step_core hcore).trans htick, rfl, rfl, rfl, rfl, rfl, rfl, rfl, rfl⟩

/-! ## A CORE that waits (R113, R121) -/

/-- Settles O36: outside RUNNING a step of the CORE changes nothing. -/
theorem waitingCoreChangesNothing : Obligations.WaitingCoreChangesNothing := by
  intro W s rest hr hcore
  exact (step_core hcore).trans (tick_waiting (s := dropPending rest s) hr)

/-- R87: FAULTED accepts no command. -/
theorem command_faulted (hf : s.runState = .faulted) (c : BitVec 3) : command c s = .next s.state := by
  obtain hc | ⟨h1, h3⟩ | hc : (c.toNat = 0 ∨ 5 ≤ c.toNat) ∨ (1 ≤ c.toNat ∧ c.toNat ≤ 3) ∨ c.toNat = 4 := by omega
  · exact command_unnamed hc
  · exact command_not_hostMayWrite h1 h3 (not_hostMayWrite (.inr hf))
  · exact command_stop_waiting hc (by simp [hf])

/-- R26, R87: no write of a control register has an effect in FAULTED. -/
theorem hostWriteControl_faulted (hf : s.runState = .faulted) (no : Nat) (v : Word W) :
    hostWriteControl no v s = .next s.state := by
  have hw := not_hostMayWrite (s := s) (.inr hf)
  unfold hostWriteControl
  split
  · exact if_neg hw
  · exact if_neg hw
  · exact command_faulted hf _
  · rfl

theorem sameRecord_refl (s : Record W) : SameRecord s s := ⟨⟨rfl, rfl, rfl, rfl, rfl, rfl, rfl⟩, rfl, rfl⟩

/-- R121: in FAULTED every access but reset is a read, or has no effect. -/
theorem hostAccess_faulted (hf : s.runState = .faulted) {a : HostAccess W} (ha : a ≠ .reset)
    (hi : PortIndexExists s a) : ∃ t : Record W, hostAccess a s = .next t.state ∧ SameRecord s t := by
  have hw := not_hostMayWrite (s := s) (.inr hf)
  cases a with
  | reset => exact absurd rfl ha
  | tick => exact ⟨s, tick_waiting (by simp [hf]), sameRecord_refl s⟩
  | writeControl no v => exact ⟨s, hostWriteControl_faulted hf no v, sameRecord_refl s⟩
  | writeX i v => exact ⟨s, (if_pos hi).trans (if_neg hw), sameRecord_refl s⟩
  | writeP k w => exact ⟨s, (if_pos hi).trans (if_neg hw), sameRecord_refl s⟩
  | readControl no => exact ⟨_, rfl, sameRecord_answer (rest := s.port.pending) _⟩
  | readX i => exact ⟨_, if_pos hi, sameRecord_answer (rest := s.port.pending) _⟩
  | readP k => exact ⟨_, if_pos hi, sameRecord_answer (rest := s.port.pending) _⟩

/-- Settles O28: the CORE waits, and an access that is not reset leaves the record as it is. -/
theorem faultedIsLeftOnlyByReset : Obligations.FaultedIsLeftOnlyByReset := by
  intro W s hf h
  cases hp : s.port.pending with
  | nil => exact ⟨s, (step_noAccess hp).trans (tick_waiting (by simp [hf])), sameRecord_refl s⟩
  | cons a rest =>
    obtain ⟨ha, hi⟩ := h a (congrArg List.head? hp)
    rw [step_access hp]
    exact hostAccess_faulted (s := dropPending rest s) hf ha hi

/-! ## The codes (R114) -/

/-- R114: a register of three bits or more holds the KIND as it is. -/
theorem toNat_faultInfo_illegalKind (hW : 3 ≤ W) (k : BitVec 3) :
    (faultInfo (W := W) (.illegalKind k)).toNat = k.toNat := by
  rw [faultInfo, if_pos hW, BitVec.toNat_setWidth_of_le hW]

/-- Settles O26, row by row. -/
theorem faultCodesAndInformation : Obligations.FaultCodesAndInformation := fun _ =>
  ⟨fun k => ⟨rfl, fun hW => toNat_faultInfo_illegalKind hW k⟩, ⟨rfl, rfl⟩, ⟨rfl, rfl⟩, ⟨rfl, rfl⟩, fun _ => ⟨rfl, rfl⟩⟩

end Sys2Proof.Machine
end

section
/-!
PROOFS. Reset (70_reset_and_hazards.md R131) and the refusal to launch a program with an unwritten word (R134).
-/

namespace Sys2Proof.Machine

variable {W : Nat} {s : Record W}

/-! ## Launches of an unwritten program (R134) -/

/-- R134: one unwritten word of the program is enough. -/
theorem not_programWritten_of_find?_eq_none {k : Nat} (hk : k < s.plen) (hnone : s.prog.find? k = none) :
    s.programWritten = false := by
  rw [Bool.eq_false_iff, Ne, programWritten_iff]
  intro hall
  have hsome := hall k hk
  rw [hnone] at hsome
  contradiction

theorem resume_unwritten (hin : s.inProgram s.pc = true) (hwr : s.programWritten = false) :
    resume s = .refused .unwrittenProgram := by
  simp [resume, hin, hwr]

theorem singleStep_unwritten (hin : s.inProgram s.pc = true) (hwr : s.programWritten = false) :
    singleStep s = .refused .unwrittenProgram := by
  simp [singleStep, hin, hwr]

/-- Settles O43: RUN is RESUME from index 0, which is in the program because the unwritten word is; RESUME and STEP are
refused where they stand. -/
theorem launchOfUnwrittenProgramIsRefused : Obligations.LaunchOfUnwrittenProgramIsRefused := by
  intro W s v rest k hwait hp hk hnone hlaunch
  have hw : hostMayWrite (dropPending rest s) = true := (hostMayWrite_iff _).2 hwait
  have hwr : s.programWritten = false := not_programWritten_of_find?_eq_none hk hnone
  rw [step_command hp]
  rcases hlaunch with hrun | ⟨hresume | hstep, hin⟩
  · have hzero : s.inProgram 0 = true := inProgram_zero (Nat.zero_lt_of_lt hk)
    exact (command_run hrun hw).trans (resume_unwritten (s := (dropPending rest s).withPc 0) hzero hwr)
  · exact (command_resume hresume hw).trans (resume_unwritten hin hwr)
  · exact (command_singleStep hstep hw).trans (singleStep_unwritten hin hwr)

/-! ## Reset (R131) -/

/-- Settles O42: the step is `resetCore`, whose fields are the reset values and whose store is empty. -/
theorem resetSetsEveryField : Obligations.ResetSetsEveryField := by
  intro W s rest hp
  have hstep : step s.state = .next (resetCore (dropPending rest s)).state := step_access hp
  exact ⟨_, hstep, List.length_replicate, fun v hv => List.eq_of_mem_replicate hv, rfl, rfl, rfl, rfl, rfl, rfl, rfl,
    Memory.find?_nil⟩

end Sys2Proof.Machine
end
